-- ==== Sys2Proof/Word.lean ====
section
/-! DEFINITION. The widths of the machine's values (00_scope.md R6) and truncation to 8 bits (00_scope.md R8). -/

namespace Sys2Proof

/-- `WORD` of 00_scope.md R6: registers, memory cells and operand bytes are unsigned 8-bit values. -/
abbrev Byte := BitVec 8

/-- `PC_WIDTH` of 00_scope.md R6: 9 bits, holding 0..511 (10_state.md R25; DESIGN CHOICE, the spec's D1, log 3). -/
abbrev Pc := BitVec 9

/-- A checked register index: R0..R7 (`NREG` of 00_scope.md R6; 10_state.md R20). -/
abbrev Reg := Fin 8

/-- `trunc8(v) = v mod 256` on naturals (00_scope.md R8). -/
def trunc8 (v : Nat) : Byte := BitVec.ofNat 8 v

/-- `trunc8(v)`, the non-negative remainder modulo 256, on integers: `trunc8(-1) = 255` (00_scope.md R8). -/
def trunc8Int (v : Int) : Byte := BitVec.ofInt 8 v

end Sys2Proof
end

