-- ==== Sys2Proof/Config.lean ====
section
/-! DEFINITION. The implementation parameters of 00_scope.md R6, and the closed enumeration of operations that the dispatch tables map to (10_state.md R36). -/

namespace Sys2Proof

/-- `MEM_SIZE`: the number of memory cells, addresses 0..255 (20_memory.md R50). -/
abbrev Config.memSize : Nat := 256

/-- `NREG`: the number of registers (10_state.md R20). -/
abbrev Config.nreg : Nat := 8

/-- `SP_INDEX`: the stack pointer is R7 (10_state.md R21; 90_conflicts.md C3). -/
abbrev Config.spIndex : Reg := 7

/-- `SP_RESET` (70_reset_and_hazards.md R230). -/
abbrev Config.spReset : Byte := 0xF4

/-- `PC_RESET` (70_reset_and_hazards.md R230, R232). -/
abbrev Config.pcReset : Pc := 0

/-- `GPR_RESET`, the reset value of R0..R6 (DESIGN CHOICE, the spec's D2, unsafe: log 5). -/
abbrev Config.gprReset : Byte := 0x00

/-- `FL_RESET` (DESIGN CHOICE, the spec's D3, unsafe: log 6). -/
abbrev Config.flReset : Byte := 0x00

/-- What a memory cell that nothing has written holds: memory is "zero-initialized" (20_memory.md R50; log 4). -/
abbrev Config.memReset : Byte := 0x00

/-- The longest image the load accepts, in bytes (70_reset_and_hazards.md R231). -/
abbrev Config.maxImage : Nat := 256

/-- `PREFETCH_OPERANDS`: false, only the `n` operand bytes are read (40_execution_cycle.md R114; DESIGN CHOICE,
the spec's D24, unsafe for code in the last two bytes of memory: log 20). -/
abbrev Config.prefetchOperands : Bool := false

/-- The operations the two dispatch tables map to: the rows of 30_encoding.md R84. -/
inductive Mnemonic where
  | hlt | ret | push | pop | prn | pra | call | jmp | jeq | jne | not | ldi
  | add | sub | mul | mod | cmp | and | or | xor | shl | shr
  deriving DecidableEq, Repr

end Sys2Proof
end

