-- ==== Sys2Proof/Machine/State.lean ====
section
/-! DEFINITION. The state tuple of spec/10_state.md as plain data, the reasons a step can stop, and the state after construction. -/

namespace Sys2Proof.Machine

/-- The error kinds of 60_exceptions.md R200. -/
inductive ErrorKind where
  | outOfRange
  | unsupportedOperation
  | divideByZero
  | loadError
  deriving DecidableEq, Repr

/-- The reasons of an UNDEFINED run state; the spec has one (10_state.md R30, 60_exceptions.md R206). -/
inductive UndefinedReason where
  | stackUnderflow
  deriving DecidableEq, Repr

/-- The run state (10_state.md R30). All but `running` are terminal. -/
inductive RunState where
  /-- a cycle may execute -/
  | running
  /-- the normal terminal state, entered only by HLT -/
  | halted
  /-- the terminal error state: the kind and the address of the failing instruction (60_exceptions.md R205) -/
  | error (kind : ErrorKind) (pc0 : Pc)
  /-- behaviour the source calls undefined: the reason and the address of the instruction (60_exceptions.md R206) -/
  | undefined (reason : UndefinedReason) (pc0 : Pc)
  /-- the host stopped the run between two instructions (60_exceptions.md R213) -/
  | cancelled
  deriving DecidableEq, Repr

/-- One event of the output stream (10_state.md R31, 60_exceptions.md R212). -/
inductive OutEvent where
  /-- a decimal value, from PRN -/
  | dec (v : Byte)
  /-- a character code, from PRA -/
  | chr (v : Byte)
  deriving DecidableEq, Repr

/-- Memory as the list of the cells that differ from `Config.memReset`, addresses strictly rising (`Memory.wf`). -/
abbrev Memory := List Host.Cell

/-- The whole state of the engine (10_state.md, opening tuple and R35), and one field of the model's own. -/
structure State where
  /-- the 256 cells (20_memory.md R50) -/
  mem : Memory
  /-- R0..R7; `x[7]` is the stack pointer (10_state.md R20, R21) -/
  x : Vector Byte 8
  /-- the program counter (10_state.md R25) -/
  pc : Pc
  /-- the flags register FL: bit 0 E, bit 1 G, bit 2 L (10_state.md R27) -/
  fl : Byte
  /-- the run state (10_state.md R30) -/
  run : RunState
  /-- the output stream, oldest event first (10_state.md R31) -/
  out : List OutEvent
  /-- THE MODEL'S OWN FIELD: what the host's cancel input will show at the coming fetches, first sample first; after
  the last one it stays deasserted (40_execution_cycle.md R111, 93_implementation_defined.md U11; log 14) -/
  cancel : List Bool
  deriving DecidableEq, Repr

/-- The reasons a step stops the machine. -/
inductive Fault where
  /-- Raised by the step (never by an instruction's meaning) when it is asked to go on from the run state
  UNDEFINED(reason, pc0): "a model treats the state as a fault" (60_exceptions.md R206, 43_stack.md R172). Safe: the
  model stops where the spec gives no behaviour (log 11). -/
  | undefinedState (reason : UndefinedReason) (pc0 : Pc)
  deriving DecidableEq, Repr

/-- The reasons a step is refused. -/
inductive Refusal where
  /-- An instruction without a meaning. No arm of `exec` answers it: every instruction is modelled. Safe. -/
  | notModelled (mnemonic : String)
  deriving DecidableEq, Repr

/-- The state after construction (70_reset_and_hazards.md R230): memory all zero, SP 0xF4, R0..R6 and FL at the
spec's own choice of 0x00 (D2, D3; log 5, log 6), pc 0, no output, RUNNING. The cancel input's list is empty
(DESIGN CHOICE, log 14). -/
def State.reset : State :=
  { mem := []
    x := #v[Config.gprReset, Config.gprReset, Config.gprReset, Config.gprReset,
            Config.gprReset, Config.gprReset, Config.gprReset, Config.spReset]
    pc := Config.pcReset
    fl := Config.flReset
    run := .running
    out := []
    cancel := [] }

end Sys2Proof.Machine
end

