-- ==== Sys2Proof/Machine/Ops.lean ====
section
/-! DEFINITION. The named operations over registers, memory, PC, flags, run state and output that every meaning uses, and the entry into an error as one shared operation. The engine has no return from an error (60_exceptions.md R208), so there is none here. -/

namespace Sys2Proof.Machine

/-! ### Registers, PC, FL, run state, output, cancel samples -/

/-- `x[i]`: read register Ri; `x[7]` is SP (00_scope.md R9, 10_state.md R21). No register is hard-wired (R20). -/
def State.reg (s : State) (i : Reg) : Byte := s.x[i]

/-- `x[i] <- v`; the value is already truncated to 8 bits (10_state.md R22). -/
def State.setReg (s : State) (i : Reg) (v : Byte) : State := { s with x := s.x.set i v }

/-- SP, which is `x[7]` (10_state.md R21). -/
def State.sp (s : State) : Byte := s.reg Config.spIndex

/-- Write SP, which is `x[7]` (10_state.md R21). -/
def State.setSp (s : State) (v : Byte) : State := s.setReg Config.spIndex v

/-- `pc <- t` (00_scope.md R9). -/
def State.setPc (s : State) (t : Pc) : State := { s with pc := t }

/-- `pc <- v` for a register or memory value: every target is an 8-bit address (10_state.md R25). -/
def State.jumpTo (s : State) (v : Byte) : State := s.setPc (v.setWidth 9)

/-- The automatic advance `pc <- p + 1 + n` past an instruction with `n` operand bytes (40_execution_cycle.md R117):
9 bits, no wrap from any address an instruction can be fetched at (10_state.md R25, log 3). -/
def State.advance (s : State) (n : Nat) : State := s.setPc (s.pc + 1 + BitVec.ofNat 9 n)

/-- `FL <- v` (00_scope.md R9). -/
def State.setFl (s : State) (v : Byte) : State := { s with fl := v }

/-- Replace the memory. -/
def State.setMem (s : State) (m : Memory) : State := { s with mem := m }

/-- Change the run state (10_state.md R30). -/
def State.setRun (s : State) (r : RunState) : State := { s with run := r }

/-- `emit`: append one event to the output stream (00_scope.md R9, 60_exceptions.md R212). -/
def State.emit (s : State) (e : OutEvent) : State := { s with out := s.out ++ [e] }

/-- The cancel input as sampled before the next fetch (40_execution_cycle.md R111, log 14). -/
def State.cancelAsserted (s : State) : Bool := s.cancel.headD false

/-- Go on to the next sample of the cancel input (log 14). -/
def State.nextSample (s : State) : State := { s with cancel := s.cancel.tail }

/-! ### Memory -/

/-- The canonical form: addresses strictly rising, all in 0..255, and no entry equal to what an unlisted cell holds. -/
abbrev Memory.wf (m : Memory) : Prop :=
  m.Pairwise (fun c d => c.1 < d.1) ∧ ∀ c ∈ m, c.1 < Config.memSize ∧ c.2 ≠ Config.memReset

/-- The byte at an address; an unlisted cell holds what construction left there (20_memory.md R50, R59). -/
def Memory.get (m : Memory) (a : Nat) : Byte := (List.lookup a m).getD Config.memReset

/-- Insert a cell before the first one of a higher address. -/
def Memory.insertCell (a : Nat) (v : Byte) : Memory → Memory
  | [] => [(a, v)]
  | c :: m => if a < c.1 then (a, v) :: c :: m else c :: Memory.insertCell a v m

/-- Change the one cell at an address, keeping the canonical form (20_memory.md R52). -/
def Memory.set (m : Memory) (a : Nat) (v : Byte) : Memory :=
  if v = Config.memReset then m.filter (fun c => c.1 != a)
  else Memory.insertCell a v (m.filter (fun c => c.1 != a))

/-- `MemRead(a, 1)`: bounds-checked, never wrapping (20_memory.md R51; 90_conflicts.md C4). -/
def memRead (m : Memory) (a : Nat) : Except ErrorKind Byte :=
  if a < Config.memSize then .ok (m.get a) else .error .outOfRange

/-- `MemWrite(a, 1, v)`: bounds-checked, changes only the addressed cell (20_memory.md R52). -/
def memWrite (m : Memory) (a : Nat) (v : Byte) : Except ErrorKind Memory :=
  if a < Config.memSize then .ok (m.set a v) else .error .outOfRange

/-! ### Errors and the undefined case -/

/-- The numeric code of an error kind (60_exceptions.md R200; the spec's D9, log 9). No behaviour depends on it. -/
def ErrorKind.code : ErrorKind → Nat
  | .outOfRange => 1
  | .unsupportedOperation => 2
  | .divideByZero => 3
  | .loadError => 4

/-- How an instruction ends other than by completing: `raise E` or `undefined U` (00_scope.md R9). -/
inductive Stop where
  | error (k : ErrorKind)
  | undefined (u : UndefinedReason)
  deriving DecidableEq, Repr

/-- ERROR ENTRY, the one shared operation (60_exceptions.md R205, R207; 40_execution_cycle.md R118): the run state becomes
ERROR(kind, p), with `p` the failing instruction's own address, which the PC still holds; nothing else is saved or
changed, and control goes to no handler (log 9, log 10). -/
def raise (k : ErrorKind) (s : State) : Host.Outcome State Fault Refusal := .next (s.setRun (.error k s.pc))

/-- Entry into UNDEFINED(reason, p), as precise as an error (60_exceptions.md R206; log 11). -/
def enterUndefined (u : UndefinedReason) (s : State) : Host.Outcome State Fault Refusal :=
  .next (s.setRun (.undefined u s.pc))

/-- End an instruction that began in `s`: it completed, or it raised and every write of it is discarded
(40_execution_cycle.md R118, R119). -/
def settle (s : State) : Except Stop State → Host.Outcome State Fault Refusal
  | .ok t => .next t
  | .error (.error k) => raise k s
  | .error (.undefined u) => enterUndefined u s

/-- An access to memory inside an instruction: its OutOfRange is the instruction's (00_scope.md R9). -/
def orRaise {α : Type} : Except ErrorKind α → Except Stop α
  | .ok a => .ok a
  | .error k => .error (.error k)

end Sys2Proof.Machine
end

