-- ==== Sys2Proof/Machine/Flags.lean ====
section
/-! DEFINITION. The flags register: its bits, the value CMP computes, and the readers (spec/10_state.md R27, R28; spec/41_alu.md R141). -/

namespace Sys2Proof.Machine

/-- FL with only E (Equal) set: bit 0 (10_state.md R27). -/
def flagE : Byte := 0x01

/-- FL with only G (Greater) set: bit 1 (10_state.md R27). -/
def flagG : Byte := 0x02

/-- FL with only L (Less) set: bit 2 (10_state.md R27). -/
def flagL : Byte := 0x04

/-- The whole of FL after CMP of `a` with `b`, compared unsigned (41_alu.md R141). G for a > b and L for a < b follow the
flag names (90_conflicts.md C2; DEDUCED, log 21). -/
def compareFlags (a b : Byte) : Byte :=
  if a = b then flagE else if b.toNat < a.toNat then flagG else flagL

/-- Bit E of FL, the only flag an instruction reads (10_state.md R28, 44_control_transfer.md R183). -/
def State.equalFlag (s : State) : Bool := s.fl.getLsbD 0

/-- Bit G of FL; no instruction reads it (10_state.md R28). -/
def State.greaterFlag (s : State) : Bool := s.fl.getLsbD 1

/-- Bit L of FL; no instruction reads it (10_state.md R28). -/
def State.lessFlag (s : State) : Bool := s.fl.getLsbD 2

end Sys2Proof.Machine
end

