-- ==== Sys2Proof/Machine/Operands.lean ====
section
/-! DEFINITION. The operand forms of spec/30_encoding.md R83: a register operand with its range check, and an immediate. -/

namespace Sys2Proof.Machine

/-- A register operand: the whole byte is the index, and 8..255 raise OutOfRange (30_encoding.md R83, 10_state.md R23).
Meanings check every register operand, opA first, before they change anything (40_execution_cycle.md R116; the spec's
D6, log 25). -/
def registerOperand (r : Byte) : Except Stop Reg :=
  if h : r.toNat < Config.nreg then .ok ⟨r.toNat, h⟩ else .error (.error .outOfRange)

/-- An immediate operand: the byte's value, zero-extended and unsigned; it is not range-checked (30_encoding.md R83,
42_load_and_output.md R160). -/
def immediateOperand (b : Byte) : Byte := b

end Sys2Proof.Machine
end

