-- ==== Sys2Proof/Machine/Alu.lean ====
section
/-! DEFINITION. The ALU instructions (spec/41_alu.md): exact arithmetic on unsigned values, reduced modulo 256, over three shared shapes. -/

namespace Sys2Proof.Machine

/-! ### The operations on values (41_alu.md R130, R142; 00_scope.md R8) -/

/-- 41_alu.md R131 -/
def addBytes (a b : Byte) : Byte := trunc8 (a.toNat + b.toNat)

/-- 41_alu.md R133: wrapping on underflow -/
def subBytes (a b : Byte) : Byte := trunc8Int ((a.toNat : Int) - (b.toNat : Int))

/-- 41_alu.md R132: the low 8 bits of the unsigned product -/
def mulBytes (a b : Byte) : Byte := trunc8 (a.toNat * b.toNat)

/-- 41_alu.md R140: the unsigned remainder, for a divisor that is not 0 -/
def modBytes (a b : Byte) : Byte := trunc8 (a.toNat % b.toNat)

/-- 41_alu.md R138: the amount is used whole; 8 or more gives 0 -/
def shlBytes (a b : Byte) : Byte := trunc8 (a.toNat <<< b.toNat)

/-- 41_alu.md R139: logical; the amount is used whole; 8 or more gives 0 -/
def shrBytes (a b : Byte) : Byte := trunc8 (a.toNat >>> b.toNat)

/-- 41_alu.md R134 -/
def andBytes (a b : Byte) : Byte := a &&& b

/-- 41_alu.md R135 -/
def orBytes (a b : Byte) : Byte := a ||| b

/-- 41_alu.md R136 -/
def xorBytes (a b : Byte) : Byte := a ^^^ b

/-- 41_alu.md R137 -/
def notByte (a : Byte) : Byte := ~~~a

/-! ### The shapes -/

/-- Format RR with a result: both operands are read, then Ra is written in place and PC advances by 3
(41_alu.md R130, 40_execution_cycle.md R117). -/
def aluBinary (f : Byte → Byte → Byte) (ra rb : Byte) (s : State) : Except Stop State := do
  let a ← registerOperand ra
  let b ← registerOperand rb
  pure ((s.setReg a (f (s.reg a) (s.reg b))).advance 2)

/-- Format R with a result: Ra is read and written in place and PC advances by 2 (41_alu.md R137). -/
def aluUnary (f : Byte → Byte) (ra : Byte) (s : State) : Except Stop State := do
  let a ← registerOperand ra
  pure ((s.setReg a (f (s.reg a))).advance 1)

/-! ### The instructions -/

/-- ADD (41_alu.md R131) -/
def execAdd (ra rb : Byte) (s : State) : Host.Outcome State Fault Refusal := settle s (aluBinary addBytes ra rb s)

/-- SUB (41_alu.md R133) -/
def execSub (ra rb : Byte) (s : State) : Host.Outcome State Fault Refusal := settle s (aluBinary subBytes ra rb s)

/-- MUL (41_alu.md R132) -/
def execMul (ra rb : Byte) (s : State) : Host.Outcome State Fault Refusal := settle s (aluBinary mulBytes ra rb s)

/-- MOD (41_alu.md R140): DivideByZero when the divisor register holds 0, after the register checks (60_exceptions.md R209). -/
def execMod (ra rb : Byte) (s : State) : Host.Outcome State Fault Refusal :=
  settle s do
    let _ ← registerOperand ra
    let b ← registerOperand rb
    if s.reg b = 0 then throw (.error .divideByZero)
    aluBinary modBytes ra rb s

/-- CMP (41_alu.md R141): writes FL whole and no register. -/
def execCmp (ra rb : Byte) (s : State) : Host.Outcome State Fault Refusal :=
  settle s do
    let a ← registerOperand ra
    let b ← registerOperand rb
    pure ((s.setFl (compareFlags (s.reg a) (s.reg b))).advance 2)

/-- AND (41_alu.md R134) -/
def execAnd (ra rb : Byte) (s : State) : Host.Outcome State Fault Refusal := settle s (aluBinary andBytes ra rb s)

/-- OR (41_alu.md R135) -/
def execOr (ra rb : Byte) (s : State) : Host.Outcome State Fault Refusal := settle s (aluBinary orBytes ra rb s)

/-- XOR (41_alu.md R136) -/
def execXor (ra rb : Byte) (s : State) : Host.Outcome State Fault Refusal := settle s (aluBinary xorBytes ra rb s)

/-- NOT (41_alu.md R137) -/
def execNot (ra : Byte) (s : State) : Host.Outcome State Fault Refusal := settle s (aluUnary notByte ra s)

/-- SHL (41_alu.md R138) -/
def execShl (ra rb : Byte) (s : State) : Host.Outcome State Fault Refusal := settle s (aluBinary shlBytes ra rb s)

/-- SHR (41_alu.md R139) -/
def execShr (ra rb : Byte) (s : State) : Host.Outcome State Fault Refusal := settle s (aluBinary shrBytes ra rb s)

end Sys2Proof.Machine
end

