-- ==== Sys2Proof/Machine/Stack.lean ====
section
/-! DEFINITION. The stack discipline shared by PUSH, POP, CALL and RET, and the stack instructions (spec/43_stack.md). -/

namespace Sys2Proof.Machine

/-- The address a push stores to: SP - 1 (43_stack.md R171), where SP is not 0. -/
def pushAddress (s : State) : Nat := (s.sp - 1).toNat

/-- `SP <- SP - 1; Memory[SP] <- value`, the value computed after the decrement (43_stack.md R171, log 12). With SP = 0
the behaviour is undefined (43_stack.md R172, log 11). -/
def pushByte (value : State → Byte) (s : State) : Except Stop State :=
  if s.sp = 0 then .error (.undefined .stackUnderflow)
  else
    let t := s.setSp (s.sp - 1)
    match memWrite t.mem (pushAddress s) (value t) with
    | .ok m => .ok (t.setMem m)
    | .error k => .error (.error k)

/-- `v <- Memory[SP]`, then `store v`, then `SP <- SP + 1` truncated to 8 bits (43_stack.md R173, R175; log 13). -/
def popByte (store : Byte → State → State) (s : State) : Except Stop State := do
  let v ← orRaise (memRead s.mem s.sp.toNat)
  let t := store v s
  pure (t.setSp (t.sp + 1))

/-- PUSH (43_stack.md R171) -/
def execPush (ra : Byte) (s : State) : Host.Outcome State Fault Refusal :=
  settle s do
    let a ← registerOperand ra
    let t ← pushByte (fun u => u.reg a) s
    pure (t.advance 1)

/-- POP (43_stack.md R173) -/
def execPop (ra : Byte) (s : State) : Host.Outcome State Fault Refusal :=
  settle s do
    let a ← registerOperand ra
    let t ← popByte (fun v u => u.setReg a v) s
    pure (t.advance 1)

end Sys2Proof.Machine
end

