-- ==== Sys2Proof/Machine/Control.lean ====
section
/-! DEFINITION. Control transfer and halt (spec/44_control_transfer.md). -/

namespace Sys2Proof.Machine

/-- The return address CALL pushes: `trunc8(p + 2)`, so 0 for a CALL at 254 (44_control_transfer.md R180; log 13). -/
def returnAddress (p : Pc) : Byte := trunc8 (p.toNat + 2)

/-- CALL (44_control_transfer.md R180): the target register is read after the push (log 12). -/
def execCall (ra : Byte) (s : State) : Host.Outcome State Fault Refusal :=
  settle s do
    let a ← registerOperand ra
    let t ← pushByte (fun _ => returnAddress s.pc) s
    pure (t.jumpTo (t.reg a))

/-- RET (44_control_transfer.md R181) -/
def execRet (s : State) : Host.Outcome State Fault Refusal := settle s (popByte (fun v u => u.jumpTo v) s)

/-- JMP (44_control_transfer.md R182) -/
def execJmp (ra : Byte) (s : State) : Host.Outcome State Fault Refusal :=
  settle s do
    let a ← registerOperand ra
    pure (s.jumpTo (s.reg a))

/-- A conditional jump: taken when bit E of FL is `e`, else past its own two bytes (44_control_transfer.md R183). The
register is checked although the jump is not taken (40_execution_cycle.md R116). -/
def jumpWhenEqualFlagIs (e : Bool) (ra : Byte) (s : State) : Except Stop State := do
  let a ← registerOperand ra
  pure (if s.equalFlag = e then s.jumpTo (s.reg a) else s.advance 1)

/-- JEQ (44_control_transfer.md R184; polarity: 90_conflicts.md C6, log 22) -/
def execJeq (ra : Byte) (s : State) : Host.Outcome State Fault Refusal := settle s (jumpWhenEqualFlagIs true ra s)

/-- JNE (44_control_transfer.md R185; polarity: 90_conflicts.md C6, log 22) -/
def execJne (ra : Byte) (s : State) : Host.Outcome State Fault Refusal := settle s (jumpWhenEqualFlagIs false ra s)

/-- HLT (44_control_transfer.md R187): PC keeps the address of the HLT byte. -/
def execHlt (s : State) : Host.Outcome State Fault Refusal := .next (s.setRun .halted)

end Sys2Proof.Machine
end

