-- ==== Sys2Proof/Machine/LoadOutput.lean ====
section
/-! DEFINITION. Load-immediate and the output instructions (spec/42_load_and_output.md). -/

namespace Sys2Proof.Machine

/-- LDI (42_load_and_output.md R160) -/
def execLdi (ra imm : Byte) (s : State) : Host.Outcome State Fault Refusal :=
  settle s do
    let a ← registerOperand ra
    pure ((s.setReg a (immediateOperand imm)).advance 2)

/-- PRN and PRA: append one event carrying the register's value, and advance by 2 (60_exceptions.md R212). -/
def emitRegister (event : Byte → OutEvent) (ra : Byte) (s : State) : Except Stop State := do
  let a ← registerOperand ra
  pure ((s.emit (event (s.reg a))).advance 1)

/-- PRN (42_load_and_output.md R161) -/
def execPrn (ra : Byte) (s : State) : Host.Outcome State Fault Refusal := settle s (emitRegister .dec ra s)

/-- PRA (42_load_and_output.md R162): a code of 128..255 is emitted unchanged (the spec's D14, log 16). -/
def execPra (ra : Byte) (s : State) : Host.Outcome State Fault Refusal := settle s (emitRegister .chr ra s)

end Sys2Proof.Machine
end

