-- ==== Sys2Proof/Syntax.lean ====
section
/-! DEFINITION. The instructions: one constructor per row of spec/opcode_table.json (30_encoding.md R84). -/

namespace Sys2Proof

/-- The 22 instructions of 30_encoding.md R84, each with its operand bytes in the order of the bytes (30_encoding.md R82).
An operand is the whole byte: a register operand of 8 or more is an instruction that raises OutOfRange, not an illegal
encoding (30_encoding.md R83, 10_state.md R23). -/
inductive Instr where
  /-- halt (44_control_transfer.md R187) -/
  | hlt
  /-- return from subroutine (44_control_transfer.md R181) -/
  | ret
  /-- push register (43_stack.md R171) -/
  | push (ra : Byte)
  /-- pop into register (43_stack.md R173) -/
  | pop (ra : Byte)
  /-- print number (42_load_and_output.md R161) -/
  | prn (ra : Byte)
  /-- print character (42_load_and_output.md R162) -/
  | pra (ra : Byte)
  /-- call subroutine through a register (44_control_transfer.md R180) -/
  | call (ra : Byte)
  /-- jump through a register (44_control_transfer.md R182) -/
  | jmp (ra : Byte)
  /-- jump if equal (44_control_transfer.md R184) -/
  | jeq (ra : Byte)
  /-- jump if not equal (44_control_transfer.md R185) -/
  | jne (ra : Byte)
  /-- bitwise complement (41_alu.md R137) -/
  | not (ra : Byte)
  /-- load immediate (42_load_and_output.md R160) -/
  | ldi (ra imm : Byte)
  /-- add (41_alu.md R131) -/
  | add (ra rb : Byte)
  /-- subtract (41_alu.md R133) -/
  | sub (ra rb : Byte)
  /-- multiply (41_alu.md R132) -/
  | mul (ra rb : Byte)
  /-- unsigned remainder (41_alu.md R140) -/
  | mod (ra rb : Byte)
  /-- compare (41_alu.md R141) -/
  | cmp (ra rb : Byte)
  /-- bitwise and (41_alu.md R134) -/
  | and (ra rb : Byte)
  /-- bitwise or (41_alu.md R135) -/
  | or (ra rb : Byte)
  /-- bitwise exclusive or (41_alu.md R136) -/
  | xor (ra rb : Byte)
  /-- shift left (41_alu.md R138) -/
  | shl (ra rb : Byte)
  /-- shift right (41_alu.md R139) -/
  | shr (ra rb : Byte)
  deriving DecidableEq, Repr

end Sys2Proof
end

