-- ==== Sys2Proof/WellFormed.lean ====
section
/-! DEFINITION. When an instruction is well-formed: its register operands name registers (10_state.md R23, 30_encoding.md R83). -/

namespace Sys2Proof

/-- The operand bytes that an instruction uses as register indices, in the order they are checked: opA for formats
R, RR and RI, then opB for format RR (40_execution_cycle.md R116). -/
def Instr.registerOperands : Instr → List Byte
  | .hlt => []
  | .ret => []
  | .push ra => [ra]
  | .pop ra => [ra]
  | .prn ra => [ra]
  | .pra ra => [ra]
  | .call ra => [ra]
  | .jmp ra => [ra]
  | .jeq ra => [ra]
  | .jne ra => [ra]
  | .not ra => [ra]
  | .ldi ra _ => [ra]
  | .add ra rb => [ra, rb]
  | .sub ra rb => [ra, rb]
  | .mul ra rb => [ra, rb]
  | .mod ra rb => [ra, rb]
  | .cmp ra rb => [ra, rb]
  | .and ra rb => [ra, rb]
  | .or ra rb => [ra, rb]
  | .xor ra rb => [ra, rb]
  | .shl ra rb => [ra, rb]
  | .shr ra rb => [ra, rb]

/-- Every register operand is below 8. Any byte value is a legal immediate (30_encoding.md R83). -/
abbrev Instr.WellFormed (i : Instr) : Prop := ∀ r ∈ i.registerOperands, r.toNat < Config.nreg

end Sys2Proof
end

