-- ==== Sys2Proof/Decode.lean ====
section
/-! DEFINITION. The instruction encoding of spec/30_encoding.md: opcode fields, dispatch tables, a total decoder that rejects by name, the encoder, and the assembler notation of R90. -/

namespace Sys2Proof

/-- The four fields of an opcode byte (30_encoding.md R81; the layout is the spec's resolution C1, DEDUCED, log 2). -/
structure OpcodeFields where
  operandCount : Nat
  isAlu : Bool
  setsPc : Bool
  identifier : BitVec 4
  deriving DecidableEq, Repr

/-- The `decode` function of 30_encoding.md R85, total and pure over all 256 bytes. -/
def opcodeFields (b : Byte) : OpcodeFields :=
  { operandCount := (b.extractLsb' 6 2).toNat
    isAlu := b.getLsbD 5
    setsPc := b.getLsbD 4
    identifier := b.extractLsb' 0 4 }

/-- `HALT_CODE`, tested on the whole opcode byte before anything else (30_encoding.md R88; log 1). -/
def haltCode : Byte := 0x01

/-- `OPCODE : Mnemonic -> byte`, the values of 30_encoding.md R84 (PRESUMED, the spec's default from general
knowledge, D4 and G1, unsafe: log 1). -/
def opcode : Mnemonic → Byte
  | .hlt => 0x01
  | .ret => 0x11
  | .push => 0x45
  | .pop => 0x46
  | .prn => 0x47
  | .pra => 0x48
  | .call => 0x50
  | .jmp => 0x54
  | .jeq => 0x55
  | .jne => 0x56
  | .not => 0x69
  | .ldi => 0x82
  | .add => 0xA0
  | .sub => 0xA1
  | .mul => 0xA2
  | .mod => 0xA4
  | .cmp => 0xA7
  | .and => 0xA8
  | .or => 0xAA
  | .xor => 0xAB
  | .shl => 0xAC
  | .shr => 0xAD

/-- The general dispatch table, keyed on the whole opcode byte (30_encoding.md R86). -/
def generalTable : List (Byte × Mnemonic) :=
  [(0x01, .hlt), (0x11, .ret), (0x45, .push), (0x46, .pop), (0x47, .prn), (0x48, .pra), (0x50, .call),
   (0x54, .jmp), (0x55, .jeq), (0x56, .jne), (0x82, .ldi)]

/-- The ALU dispatch table, keyed on the four-bit identifier (30_encoding.md R86). -/
def aluTable : List (BitVec 4 × Mnemonic) :=
  [(0x0, .add), (0x1, .sub), (0x2, .mul), (0x4, .mod), (0x7, .cmp), (0x8, .and), (0x9, .not), (0xA, .or),
   (0xB, .xor), (0xC, .shl), (0xD, .shr)]

/-- Why the decoder rejects a byte sequence. The first four are the groups of 30_encoding.md R87, each an
UnsupportedOperation; the last two say that the sequence ends too early. -/
inductive DecodeReject where
  /-- group 1: the operand count field is 3 -/
  | operandCountThree
  /-- group 2: a general-class byte that is not in the general table -/
  | generalByteUnknown
  /-- group 3: an ALU-class byte whose identifier is not in the ALU table -/
  | aluIdentifierUnknown
  /-- group 4: an ALU-class byte whose N or P field is not the canonical one (the spec's D5, log 7) -/
  | aluByteNotCanonical
  /-- no opcode byte -/
  | noOpcode
  /-- fewer operand bytes than the opcode's N -/
  | operandMissing
  deriving DecidableEq, Repr

/-- The lookup of 40_execution_cycle.md R115: by class, and only the canonical bytes of R84 are legal. -/
def lookupOpcode (op : Byte) : Except DecodeReject Mnemonic :=
  if (opcodeFields op).isAlu then
    match aluTable.lookup (opcodeFields op).identifier with
    | none => .error .aluIdentifierUnknown
    | some m => if opcode m = op then .ok m else .error .aluByteNotCanonical
  else
    match generalTable.lookup op with
    | none => .error .generalByteUnknown
    | some m => .ok m

/-- The instruction of an operation and its operand bytes; a byte the operation's format lacks is not used
(30_encoding.md R82). -/
def Instr.assemble (opA opB : Byte) : Mnemonic → Instr
  | .hlt => .hlt
  | .ret => .ret
  | .push => .push opA
  | .pop => .pop opA
  | .prn => .prn opA
  | .pra => .pra opA
  | .call => .call opA
  | .jmp => .jmp opA
  | .jeq => .jeq opA
  | .jne => .jne opA
  | .not => .not opA
  | .ldi => .ldi opA opB
  | .add => .add opA opB
  | .sub => .sub opA opB
  | .mul => .mul opA opB
  | .mod => .mod opA opB
  | .cmp => .cmp opA opB
  | .and => .and opA opB
  | .or => .or opA opB
  | .xor => .xor opA opB
  | .shl => .shl opA opB
  | .shr => .shr opA opB

/-- Decode the instruction at the head of a byte sequence and return the bytes after it. The tests stand in the order
of 40_execution_cycle.md R119: halt code, operand count 3, operand bytes present, table lookup. -/
def decode : List Byte → Except DecodeReject (Instr × List Byte)
  | [] => .error .noOpcode
  | op :: rest =>
    if op = haltCode then .ok (.hlt, rest)
    else if (opcodeFields op).operandCount = 3 then .error .operandCountThree
    else if rest.length < (opcodeFields op).operandCount then .error .operandMissing
    else
      match lookupOpcode op with
      | .error r => .error r
      | .ok m => .ok (Instr.assemble (rest.getD 0 0) (rest.getD 1 0) m, rest.drop (opcodeFields op).operandCount)

/-- The operation of an instruction: its row of 30_encoding.md R84. -/
def Instr.mnemonic : Instr → Mnemonic
  | .hlt => .hlt
  | .ret => .ret
  | .push _ => .push
  | .pop _ => .pop
  | .prn _ => .prn
  | .pra _ => .pra
  | .call _ => .call
  | .jmp _ => .jmp
  | .jeq _ => .jeq
  | .jne _ => .jne
  | .not _ => .not
  | .ldi _ _ => .ldi
  | .add _ _ => .add
  | .sub _ _ => .sub
  | .mul _ _ => .mul
  | .mod _ _ => .mod
  | .cmp _ _ => .cmp
  | .and _ _ => .and
  | .or _ _ => .or
  | .xor _ _ => .xor
  | .shl _ _ => .shl
  | .shr _ _ => .shr

/-- The operand bytes of an instruction in memory order: the register operands, and LDI's immediate after its
register (30_encoding.md R80, R82). -/
def Instr.operandBytes : Instr → List Byte
  | .ldi ra imm => [ra, imm]
  | i => i.registerOperands

/-- The bytes of an instruction (30_encoding.md R80, R82, R84). -/
def encode (i : Instr) : List Byte := opcode i.mnemonic :: i.operandBytes

/-- The three lowest bytes of a table word of `nbits` bits, first byte least significant; bits above `nbits` are 0. -/
def tableBytes (nbits w : Nat) : List Byte :=
  let v := w % 2 ^ nbits
  [BitVec.ofNat 8 v, BitVec.ofNat 8 (v >>> 8), BitVec.ofNat 8 (v >>> 16)]

/-- The instruction the decoder reads from a word numbered as spec/opcode_table.json numbers it. -/
def decodeTableWord (nbits w : Nat) : Option Instr :=
  match decode (tableBytes nbits w) with
  | .ok (i, _) => some i
  | .error _ => none

/-- The mnemonic as 30_encoding.md R84 and R90 spell it. -/
def Mnemonic.name : Mnemonic → String
  | .hlt => "HLT"
  | .ret => "RET"
  | .push => "PUSH"
  | .pop => "POP"
  | .prn => "PRN"
  | .pra => "PRA"
  | .call => "CALL"
  | .jmp => "JMP"
  | .jeq => "JEQ"
  | .jne => "JNE"
  | .not => "NOT"
  | .ldi => "LDI"
  | .add => "ADD"
  | .sub => "SUB"
  | .mul => "MUL"
  | .mod => "MOD"
  | .cmp => "CMP"
  | .and => "AND"
  | .or => "OR"
  | .xor => "XOR"
  | .shl => "SHL"
  | .shr => "SHR"

/-- A register operand in the notation of 30_encoding.md R90. -/
def registerName (r : Byte) : String := "R" ++ toString r.toNat

/-- An instruction in the notation of 30_encoding.md R90 (notation only, the spec's D19): the immediate in decimal. -/
def Instr.asm (i : Instr) : String :=
  match i with
  | .ldi ra imm => "LDI " ++ registerName ra ++ ", " ++ toString imm.toNat
  | i =>
    match i.registerOperands with
    | [] => i.mnemonic.name
    | ra :: rest => i.mnemonic.name ++ " " ++ registerName ra ++ String.join (rest.map (fun r => ", " ++ registerName r))

end Sys2Proof
end

