-- ==== Sys2Proof/Machine/Fetch.lean ====
section
/-! DEFINITION. Fetching and decoding one instruction: the part of the step before `execute` (spec/40_execution_cycle.md R112 to R115). -/

namespace Sys2Proof.Machine

/-- Read `n` bytes in increasing address order, bounds-checked (20_memory.md R55). -/
def readBytes (m : Memory) (a : Nat) : Nat → Except ErrorKind (List Byte)
  | 0 => .ok []
  | n + 1 => do
    let b ← memRead m a
    let bs ← readBytes m (a + 1) n
    pure (b :: bs)

/-- The bytes of the instruction at address `p`: the opcode, the halt test before any operand is fetched, the test of
operand count 3, then the operand bytes (40_execution_cycle.md R112, R113, R114). With `prefetch` both operand slots are
read whatever the count is (`PREFETCH_OPERANDS`, 92_eei_decisions.md D24; log 20). -/
def fetchBytes (prefetch : Bool) (m : Memory) (p : Nat) : Except ErrorKind (List Byte) := do
  let op ← memRead m p
  if op = haltCode then pure [op]
  else if (opcodeFields op).operandCount = 3 then throw .unsupportedOperation
  else
    let operands ← readBytes m (p + 1) (if prefetch then 2 else (opcodeFields op).operandCount)
    pure (op :: operands.take (opcodeFields op).operandCount)

/-- The error a rejected byte sequence raises (30_encoding.md R87, 60_exceptions.md R201, R202). -/
def rejectError : DecodeReject → ErrorKind
  | .operandCountThree => .unsupportedOperation
  | .generalByteUnknown => .unsupportedOperation
  | .aluIdentifierUnknown => .unsupportedOperation
  | .aluByteNotCanonical => .unsupportedOperation
  | .noOpcode => .outOfRange
  | .operandMissing => .outOfRange

/-- The instruction at address `p`: fetch, then classify and look up (40_execution_cycle.md R112 to R115). The order of the
tests is the precedence of errors (60_exceptions.md R209; the spec's D8, log 8). -/
def fetchInstr (prefetch : Bool) (m : Memory) (p : Nat) : Except ErrorKind Instr :=
  match fetchBytes prefetch m p with
  | .error k => .error k
  | .ok bytes =>
    match decode bytes with
    | .ok (i, _) => .ok i
    | .error r => .error (rejectError r)

end Sys2Proof.Machine
end

