-- ==== Sys2Proof/Machine/Cycle.lean ====
section
/-! DEFINITION. One step of the engine (spec/40_execution_cycle.md R110 to R119). -/

namespace Sys2Proof.Machine

/-- Fetch, decode and execute one instruction (40_execution_cycle.md R119 from its line for R112 on). -/
def runInstruction (s : State) : Host.Outcome State Fault Refusal :=
  match fetchInstr Config.prefetchOperands s.mem s.pc.toNat with
  | .error k => raise k s
  | .ok i => exec i s

/-- A step. RUNNING: the cancel input is sampled before the fetch, and if it is asserted the run state becomes CANCELLED and
nothing else changes (40_execution_cycle.md R111); else one instruction runs. HALTED, ERROR and CANCELLED: no instruction
runs and the state never changes again, so the step answers the same state (40_execution_cycle.md R110, 60_exceptions.md
R208; log 15). UNDEFINED: a fault (60_exceptions.md R206; log 11). -/
def cycle (s : State) : Host.Outcome State Fault Refusal :=
  match s.run with
  | .running => if s.cancelAsserted then .next (s.setRun .cancelled) else runInstruction s.nextSample
  | .halted => .next s
  | .error _ _ => .next s
  | .cancelled => .next s
  | .undefined u p => .fault (.undefinedState u p)

end Sys2Proof.Machine
end

