-- ==== Sys2Proof/Machine/HostPort.lean ====
section
/-! DEFINITION. The engine's interface to its host beside the step: the image load, the trace snapshot, the status (spec/60_exceptions.md R212 to R216, spec/70_reset_and_hazards.md R230, R231). -/

namespace Sys2Proof.Machine

/-- Store bytes at increasing addresses from `a` on; a byte beyond address 255 has no cell and is dropped. -/
def storeBytes (m : Memory) (a : Nat) : List Byte → Memory
  | [] => m
  | b :: bs => storeBytes (if a < Config.memSize then m.set a b else m) (a + 1) bs

/-- Load a program image, once, after construction and before the first step (70_reset_and_hazards.md R231). An image of
more than 256 bytes is a LoadError before any byte is written (60_exceptions.md R204; the spec's D22, log 19); an empty
one is accepted (the spec's D23). -/
def State.load (image : List Byte) (s : State) : State :=
  if Config.maxImage < image.length then s.setRun (.error .loadError 0)
  else s.setMem (storeBytes s.mem 0 image)

/-- Construction and load: the state a run of `image` starts from (70_reset_and_hazards.md R230, R231, R232). -/
def boot (image : List Byte) : State := State.reset.load image

/-- What the host sees of the engine on request (60_exceptions.md R214). FL and the run state are not in it. -/
structure Snapshot where
  pc : Pc
  /-- `mem[pc]`, `mem[pc+1]`, `mem[pc+2]`; absent where the address is 256 or more -/
  next0 : Option Byte
  next1 : Option Byte
  next2 : Option Byte
  x : Vector Byte 8
  deriving DecidableEq, Repr

/-- A memory byte of the snapshot: absent, without an error, beyond address 255 (60_exceptions.md R214; the spec's D21,
log 18). -/
def snapshotByte (m : Memory) (a : Nat) : Option Byte := (memRead m a).toOption

/-- The trace snapshot (60_exceptions.md R214, 20_memory.md R63). -/
def State.snapshot (s : State) : Snapshot :=
  { pc := s.pc
    next0 := snapshotByte s.mem s.pc.toNat
    next1 := snapshotByte s.mem (s.pc.toNat + 1)
    next2 := snapshotByte s.mem (s.pc.toNat + 2)
    x := s.x }

/-- The `status` output (60_exceptions.md R215). -/
def State.status (s : State) : RunState := s.run

/-- A run ends with the first step after which the status is not RUNNING (60_exceptions.md R216). -/
def State.ended (s : State) : Bool := decide (s.run ≠ .running)

/-- The list of samples with the next one deasserted and the later ones as they were. -/
def deassertNext : List Bool → List Bool
  | [] => []
  | _ :: rest => false :: rest

end Sys2Proof.Machine
end

