-- ==== Sys2Proof/Machine/Step.lean ====
section
/-! DEFINITION. The step as the host names it, and placing one instruction where the next step fetches it. -/

namespace Sys2Proof.Machine

/-- One step of the engine (40_execution_cycle.md R119): see `cycle`. -/
def step (s : State) : Host.Outcome State Fault Refusal := cycle s

/-- `s` with the instruction word of the opcode table stored at the program counter, so that the very next step fetches and
runs it: the fetch needs the three bytes there (those beyond address 255 have no cell), the run state RUNNING, and the
next cancel sample deasserted. It stands for the image load (log 19). -/
def State.withFetchWord (s : State) (nbits w : Nat) : State :=
  { s with
    mem := storeBytes s.mem s.pc.toNat (tableBytes nbits w)
    run := .running
    cancel := deassertNext s.cancel }

end Sys2Proof.Machine
end

