-- ==== Sys2Proof/Safety.lean ====
section
/-! DEFINITION. The terms that claims use: when a step runs an instruction, what bytes stand at an address, what two states have in common, and the invariant of the engine. -/

namespace Sys2Proof.Safety

open Sys2Proof.Machine

/-- A state that a safe run may be in: going on, or ended by HLT. ERROR, UNDEFINED and CANCELLED are no success (10_state.md
R30, 60_exceptions.md R206). -/
abbrev SafeState (s : State) : Prop := s.run = .running ∨ s.run = .halted

/-- `n` steps from `s` meet no fault, no refusal, and only safe states. -/
def safeRun : Nat → State → Bool
  | 0, s => decide (SafeState s)
  | n + 1, s =>
    decide (SafeState s) &&
      match step s with
      | .next t => safeRun n t
      | .fault _ => false
      | .refused _ => false

/-- A step of `s` runs an instruction: RUNNING and the cancel sample not asserted (40_execution_cycle.md R110, R111). -/
abbrev Ready (s : State) : Prop := s.run = .running ∧ s.cancelAsserted = false

/-- The bytes `bs` stand in memory from address `p` on, every one of them at an address that exists. -/
abbrev BytesAt (m : Memory) (p : Nat) (bs : List Byte) : Prop :=
  ∀ k : Fin bs.length, memRead m (p + k) = .ok (bs.get k)

/-- Every address of memory reads alike in both states. -/
abbrev SameMemory (s t : State) : Prop := ∀ a, memRead t.mem a = memRead s.mem a

/-- Every address of memory but `at0` reads alike in both states. -/
abbrev SameMemoryBut (at0 : Nat) (s t : State) : Prop := ∀ a, a ≠ at0 → memRead t.mem a = memRead s.mem a

/-- Every register reads alike in both states. -/
abbrev SameRegisters (s t : State) : Prop := ∀ r, t.reg r = s.reg r

/-- Every register but `a` reads alike in both states. -/
abbrev SameRegistersBut (a : Reg) (s t : State) : Prop := ∀ r, r ≠ a → t.reg r = s.reg r

/-- Every register but `a` and `b` reads alike in both states. -/
abbrev SameRegistersBut2 (a b : Reg) (s t : State) : Prop := ∀ r, r ≠ a → r ≠ b → t.reg r = s.reg r

/-- FL, the run state, the output stream and the cancel input's list are alike in both states. -/
abbrev SameRest (s t : State) : Prop := t.fl = s.fl ∧ t.run = s.run ∧ t.out = s.out ∧ t.cancel = s.cancel

/-- The frame of an instruction that writes the register `a` and nothing else but the PC. -/
abbrev OnlyRegisterChanges (a : Reg) (s t : State) : Prop :=
  SameRegistersBut a s t ∧ SameMemory s t ∧ SameRest s t

/-- The frame of an instruction that writes nothing but the PC. -/
abbrev OnlyPcChanges (s t : State) : Prop := SameRegisters s t ∧ SameMemory s t ∧ SameRest s t

/-- The state of an ERROR entry of `s`: nothing but the run state differs, and it records the PC (60_exceptions.md R205,
R207). -/
abbrev errorState (k : ErrorKind) (s : State) : State := { s with run := .error k s.pc }

/-- The state of an UNDEFINED entry of `s` (60_exceptions.md R206). -/
abbrev undefinedState (u : UndefinedReason) (s : State) : State := { s with run := .undefined u s.pc }

/-- The registers an instruction may write, by index: the `writes` column of 10_state.md R24. -/
def writtenRegisters : Instr → List Nat
  | .hlt => []
  | .ret => [7]
  | .push _ => [7]
  | .pop ra => [ra.toNat, 7]
  | .prn _ => []
  | .pra _ => []
  | .call _ => [7]
  | .jmp _ => []
  | .jeq _ => []
  | .jne _ => []
  | .not ra => [ra.toNat]
  | .ldi ra _ => [ra.toNat]
  | .add ra _ => [ra.toNat]
  | .sub ra _ => [ra.toNat]
  | .mul ra _ => [ra.toNat]
  | .mod ra _ => [ra.toNat]
  | .cmp _ _ => []
  | .and ra _ => [ra.toNat]
  | .or ra _ => [ra.toNat]
  | .xor ra _ => [ra.toNat]
  | .shl ra _ => [ra.toNat]
  | .shr ra _ => [ra.toNat]

/-- The 22 legal opcode bytes, written out from the `byte` column of 30_encoding.md R84 (log 1). -/
def legalOpcodes : List Byte :=
  [0x01, 0x11, 0x45, 0x46, 0x47, 0x48, 0x50, 0x54, 0x55, 0x56, 0x69,
   0x82, 0xA0, 0xA1, 0xA2, 0xA4, 0xA7, 0xA8, 0xAA, 0xAB, 0xAC, 0xAD]

/-- FL holds nothing but at most one of E, G, L (10_state.md R27, R28). -/
abbrev FlagsLegal (fl : Byte) : Prop := fl = 0x00 ∨ fl = 0x01 ∨ fl = 0x02 ∨ fl = 0x04

/-- What a terminal run state says of the rest of the state: an error's and the undefined case's recorded address is the PC
(60_exceptions.md R205, R206, R207), SP is 0 in UNDEFINED(StackUnderflow) (43_stack.md R172), and a halted engine's PC is
the address of a halt byte (44_control_transfer.md R187). -/
def runConsistent (s : State) : Bool :=
  match s.run with
  | .running => true
  | .cancelled => true
  | .halted => decide (s.pc.toNat < 256 ∧ s.mem.get s.pc.toNat = 0x01)
  | .error _ p => decide (p = s.pc)
  | .undefined .stackUnderflow p => decide (p = s.pc ∧ s.reg 7 = 0)

/-- The invariant of the engine: memory is canonical, the PC is at most 256 (10_state.md R25), FL is legal (10_state.md R27,
R28), and the run state agrees with the rest. -/
abbrev Inv (s : State) : Prop :=
  s.mem.wf ∧ s.pc.toNat ≤ 256 ∧ FlagsLegal s.fl ∧ runConsistent s = true

end Sys2Proof.Safety
end

