-- ==== Sys2Proof/Certificates/Slice0/Obligations.lean ====
section
/-! DEFINITION. The statements about the machine, in the order of OBLIGATIONS.json. Opcode byte values are the spec's own default (30_encoding.md R84, decision D4, log 1) wherever a statement writes one out. -/

open Sys2Proof Sys2Proof.Machine Sys2Proof.Safety

/-! ### Encoding (spec/30_encoding.md) -/

/-- Decoding the bytes of any instruction, whatever follows them, gives it back with every operand, and the bytes after it
(30_encoding.md R80, R82, R83, R84). No well-formedness is assumed: every operand byte 0..255 is admitted. -/
def Obligations.DecodeInvertsEncode : Prop :=
  ∀ (i : Instr) (rest : List Byte), decode (encode i ++ rest) = .ok (i, rest)

/-- Each byte sequence has one meaning: what decodes to an instruction is that instruction's encoding and what follows it
(30_encoding.md R80, R87, R89). That no other bytes decode, ALU aliases such as 0xB0 among them (R87 item 4), is the spec's
decision D5 and the model's choice (log 7); the byte values are D4 (log 1). -/
def Obligations.DecodedBytesAreTheEncoding : Prop :=
  ∀ (bs rest : List Byte) (i : Instr), decode bs = .ok (i, rest) → bs = encode i ++ rest

/-- Exactly the 22 bytes of 30_encoding.md R84, written out in `legalOpcodes`, are opcodes of an instruction
(30_encoding.md R87; the spec's decisions D4 and D5, log 1 and log 7). -/
def Obligations.OnlyTheLegalOpcodesDecode : Prop :=
  ∀ (op opA opB : Byte) (tail : List Byte),
    (∃ i rest, decode (op :: opA :: opB :: tail) = .ok (i, rest)) ↔ op ∈ legalOpcodes

/-- The bytes that the spec writes for its instructions decode to them (42_load_and_output.md R160, 95_test_vectors.md P1,
P2, P3, P4): one of each format and family. A sanity statement (log 1). -/
def Obligations.BytesWrittenInTheSpecDecode : Prop :=
  decode [0x82, 0x00, 0x08] = .ok (.ldi 0 8, []) ∧
  decode [0xA2, 0x00, 0x01] = .ok (.mul 0 1, []) ∧
  decode [0x69, 0x00] = .ok (.not 0, []) ∧
  decode [0xA7, 0x00, 0x01] = .ok (.cmp 0 1, []) ∧
  decode [0x47, 0x00] = .ok (.prn 0, []) ∧
  decode [0x45, 0x01] = .ok (.push 1, []) ∧
  decode [0x50, 0x02] = .ok (.call 2, []) ∧
  decode [0x56, 0x03] = .ok (.jne 3, []) ∧
  decode [0x11] = .ok (.ret, []) ∧
  decode [0x01] = .ok (.hlt, [])

/-- The decode function of 30_encoding.md R85 reads, of every byte, the fields b[7:6], b[5], b[4] and b[3:0]. These bit
positions, R81's, are the spec's own resolution C1 of the source's wording, not the source's (log 2, DEDUCED). -/
def Obligations.OpcodeFieldsOfEveryByte : Prop :=
  ∀ b : Byte,
    (opcodeFields b).operandCount = b.toNat / 64 ∧
    ((opcodeFields b).isAlu = true ↔ b.toNat / 32 % 2 = 1) ∧
    ((opcodeFields b).setsPc = true ↔ b.toNat / 16 % 2 = 1) ∧
    (opcodeFields b).identifier.toNat = b.toNat % 16

/-! ### Memory (spec/20_memory.md) -/

/-- MemWrite stores `v mod 256` at an address 0..255 and changes only that cell, and raises OutOfRange for an address of 256
or more (20_memory.md R52). -/
def Obligations.MemWriteChangesOnlyTheAddressedCell : Prop :=
  ∀ (m : Memory) (a v : Nat),
    (a ≤ 255 → ∃ m', memWrite m a (trunc8 v) = .ok m' ∧
      (∃ b, memRead m' a = .ok b ∧ b.toNat = v % 256) ∧
      ∀ c, c ≠ a → memRead m' c = memRead m c) ∧
    (256 ≤ a → memWrite m a (trunc8 v) = .error .outOfRange)

/-- MemRead answers a byte for every address 0..255 and raises OutOfRange for every address of 256 or more: no address wraps
(20_memory.md R51). -/
def Obligations.MemReadIsBoundsChecked : Prop :=
  ∀ (m : Memory) (a : Nat),
    (a ≤ 255 → ∃ v, memRead m a = .ok v) ∧ (256 ≤ a → memRead m a = .error .outOfRange)

/-- Memory is the function from its 256 addresses to bytes and nothing more (20_memory.md R50): two canonical memories that
read alike at every address are equal. The list form is the model's (log 4). -/
def Obligations.CanonicalMemoriesReadingAlikeAreEqual : Prop :=
  ∀ m n : Memory, m.wf → n.wf → (∀ a, memRead m a = memRead n a) → m = n

/-! ### The step (spec/40_execution_cycle.md, spec/60_exceptions.md) -/

/-- When a step runs an instruction, and bytes that decode to `i` stand at the PC, the step is `exec i` of the same state
with the used-up sample of the cancel input dropped (40_execution_cycle.md R112, R114, R115, R117; the cancel list is the
model's, log 14). For an instruction other than HLT of one or two bytes at 254 or 255 it rests on PREFETCH_OPERANDS = false,
the spec's decision D24 (log 20, unsafe there). -/
def Obligations.StepRunsTheDecodedInstruction : Prop :=
  ∀ (s : State) (i : Instr) (bs rest : List Byte),
    Ready s → BytesAt s.mem s.pc.toNat bs → decode bs = .ok (i, rest) →
    step s = exec i { s with cancel := s.cancel.tail }

/-- A word of the opcode table that `withFetchWord` places is what the very next step runs, wherever the PC leaves room for
the longest instruction. About the model's loading hook (log 19). -/
def Obligations.PlacedWordIsRunByTheNextStep : Prop :=
  ∀ (s : State) (nbits w : Nat) (i : Instr),
    s.pc.toNat ≤ 253 → decodeTableWord nbits w = some i →
    step (s.withFetchWord nbits w) = exec i (s.withFetchWord nbits w).nextSample

/-- A cancel input that is asserted before the fetch makes the run state CANCELLED and changes nothing else, whatever stands
at the PC (40_execution_cycle.md R111, 60_exceptions.md R213, R209; the spec's decision D13, log 14). -/
def Obligations.AssertedCancelEndsTheRun : Prop :=
  ∀ s : State, s.run = .running → s.cancelAsserted = true → step s = .next { s with run := .cancelled }

/-- The fetch reads the opcode byte at the PC, and a PC of 256 or more raises OutOfRange with that PC recorded, nothing but
the run state changed (40_execution_cycle.md R112). That the error changes nothing else is the spec's decision D7 and the
model's choice (log 10); the sample of the cancel input that the step drops is the model's own (log 14). -/
def Obligations.OpcodeFetchReadsAtThePc : Prop :=
  (∀ (prefetch : Bool) (m : Memory) (p : Nat) (bs : List Byte), fetchBytes prefetch m p = .ok bs →
    ∃ op tail, bs = op :: tail ∧ memRead m p = .ok op) ∧
  (∀ s : State, Ready s → 256 ≤ s.pc.toNat →
    step s = .next (errorState .outOfRange { s with cancel := s.cancel.tail }))

/-- The halt code at the PC ends the run in HALTED with nothing else of the spec's state changed, at every address, the last one
too (40_execution_cycle.md R113, 44_control_transfer.md R187). The model's own cancel list drops the used-up sample, which is
the model's choice (log 14); the byte is the spec's decision D4 (log 1). -/
def Obligations.HaltCodeEndsTheRun : Prop :=
  ∀ s : State, Ready s → memRead s.mem s.pc.toNat = .ok 0x01 →
    step s = .next { s with cancel := s.cancel.tail, run := .halted }

/-- HALTED is entered only by HLT (10_state.md R30, 44_control_transfer.md R187). -/
def Obligations.HaltedIsEnteredOnlyByTheHaltCode : Prop :=
  ∀ s t : State, s.run = .running → step s = .next t → t.run = .halted → memRead s.mem s.pc.toNat = .ok 0x01

/-- An operand byte that would lie at 256 or above raises OutOfRange with the instruction's address recorded, before any table
is consulted (40_execution_cycle.md R114, 60_exceptions.md R201, R205, R209; the spec's decisions D8 and D24, log 8 and
log 20). That the error changes nothing but the run state is the spec's decision D7 and the model's choice (log 10); the
dropped cancel sample is the model's own (log 14). -/
def Obligations.OperandFetchOutsideMemoryRaisesOutOfRange : Prop :=
  ∀ (s : State) (op : Byte), Ready s → memRead s.mem s.pc.toNat = .ok op → op ≠ 0x01 →
    op.toNat / 64 ≠ 3 → 256 ≤ s.pc.toNat + op.toNat / 64 →
    step s = .next (errorState .outOfRange { s with cancel := s.cancel.tail })

/-- An opcode byte that is not one of the 22 raises UnsupportedOperation at its address: at once with operand count 3, else
once its operand bytes have been fetched (40_execution_cycle.md R114, R115, 30_encoding.md R87, 60_exceptions.md R202,
R209; the spec's decisions D4, D5 and D8, log 1, log 7 and log 8). That no operand byte but the counted ones is fetched, at 254
and 255 too, is D24 (log 20); that the error changes nothing but the run state is D7 and the model's choice (log 10); the
dropped cancel sample is the model's own (log 14). -/
def Obligations.UnsupportedOpcodeRaisesUnsupportedOperation : Prop :=
  ∀ (s : State) (op : Byte), Ready s → memRead s.mem s.pc.toNat = .ok op → op ∉ legalOpcodes →
    (op.toNat / 64 = 3 ∨ s.pc.toNat + op.toNat / 64 < 256) →
    step s = .next (errorState .unsupportedOperation { s with cancel := s.cancel.tail })

/-- Any instruction with a register operand of 8 or more raises OutOfRange and changes nothing but the run state: a jump that
would not be taken, MOD by zero, PUSH and CALL at SP 0 too (10_state.md R23, 40_execution_cycle.md R116, 60_exceptions.md
R209; the spec's decisions D6 and D8, log 25 and log 8). That nothing but the run state changes is the spec's decision D7 and
the model's choice (log 10). -/
def Obligations.RegisterOperandOutOfRangeRaisesOutOfRange : Prop :=
  ∀ (i : Instr) (s : State), ¬ i.WellFormed → exec i s = .next (errorState .outOfRange s)

/-- Errors are precise: a step that raises one has changed nothing but the run state, which records the PC
(40_execution_cycle.md R118, 60_exceptions.md R205, R207; the spec's decision D7, log 10; the cancel list is the model's,
log 14). -/
def Obligations.RaisingStepsArePrecise : Prop :=
  ∀ (s t : State) (k : ErrorKind) (p : Pc), s.run = .running → step s = .next t → t.run = .error k p →
    t = errorState k { s with cancel := s.cancel.tail }

/-- Terminal states persist: from HALTED, CANCELLED and ERROR any number of steps answers the same state, and from UNDEFINED a
step is a fault (40_execution_cycle.md R110, 60_exceptions.md R206, R208; the spec's decisions D10 and D20; how a step of a
terminal state is answered is the model's choice, log 11 and log 15). -/
def Obligations.TerminalStatesPersist : Prop :=
  (∀ (n : Nat) (s : State), (s.run = .halted ∨ s.run = .cancelled ∨ ∃ k p, s.run = .error k p) →
    Host.Core.run core n s = .next s) ∧
  (∀ (n : Nat) (s : State) (u : UndefinedReason) (p : Pc), s.run = .undefined u p →
    Host.Core.run core (n + 1) s = .fault (.undefinedState u p))

/-- The machine is total: every instruction answers a next state in every state, and a step answers one exactly where the run
state is not UNDEFINED; nothing is refused (40_execution_cycle.md R119, R120). R119 speaks of RUNNING only: that a step of
HALTED, ERROR or CANCELLED answers a next state is the model's own choice (log 15), and so are that the entry into an error is
a next state (log 9), and that into UNDEFINED one, with the fault in the step after it (log 11). -/
def Obligations.StepAnswersExceptInUndefined : Prop :=
  (∀ (i : Instr) (s : State), ∃ t, exec i s = .next t) ∧
  (∀ s : State, (∃ t, step s = .next t) ↔ ∀ u p, s.run ≠ .undefined u p)

/-- Every step keeps the invariant: memory canonical, PC at most 256, FL at most one of E, G, L, and the run state consistent
with the rest (10_state.md R25, R27, R28, 60_exceptions.md R205, R206, R207). For every state, not only reachable ones.That the PC
still holds the recorded address of an error is the spec's decision D7 (log 10), and of UNDEFINED D10 (log 11). -/
def Obligations.StepKeepsTheInvariant : Prop :=
  ∀ s t : State, Inv s → step s = .next t → Inv t

/-- The state after construction meets the invariant (70_reset_and_hazards.md R230). That FL is legal there rests on FL's reset
value 0, the spec's decision D3 and the model's choice (log 6). -/
def Obligations.ResetMeetsTheInvariant : Prop :=
  Inv State.reset

/-- Whatever image is loaded, the state a run starts from meets the invariant (70_reset_and_hazards.md R231). It rests on FL's
reset value 0, the spec's decision D3 and the model's choice (log 6), and on a LoadError being recorded at 0, the spec's
decision D22 (log 19). -/
def Obligations.BootMeetsTheInvariant : Prop :=
  ∀ image : List Byte, Inv (boot image)

/-- A step raises DivideByZero exactly when the instruction at the PC is a MOD of two registers whose divisor register holds 0
(60_exceptions.md R203, 41_alu.md R140). That a MOD with an operand of 8 or more never raises it, its divisor 0 or not, rests
on the spec's decisions D6 and D8, the check of both operands before execution and the precedence of errors (40_execution_cycle.md
R116, 60_exceptions.md R209; log 25 and log 8, unsafe for the kind reported). -/
def Obligations.DivideByZeroIsRaisedOnlyByMod : Prop :=
  ∀ s : State, Ready s →
    ((∃ t p, step s = .next t ∧ t.run = .error .divideByZero p) ↔
      ∃ (ra rb : Byte) (_ : ra.toNat < 8) (hb : rb.toNat < 8),
        BytesAt s.mem s.pc.toNat (encode (.mod ra rb)) ∧ s.reg ⟨rb.toNat, hb⟩ = 0)

/-- A step enters UNDEFINED exactly when the instruction at the PC is a PUSH or CALL of a register and SP is 0
(43_stack.md R172, 60_exceptions.md R206; the spec's decision D10, log 11). That at PC 254 it does so, and does not raise
OutOfRange, rests on PREFETCH_OPERANDS = false, D24 (log 20); that an operand of 8 or more raises OutOfRange and does not enter
UNDEFINED rests on D6 and D8 (40_execution_cycle.md R116, 60_exceptions.md R209; log 25 and log 8). -/
def Obligations.UndefinedIsEnteredOnlyByPushOrCallAtZero : Prop :=
  ∀ s : State, Ready s →
    ((∃ t u p, step s = .next t ∧ t.run = .undefined u p) ↔
      s.reg 7 = 0 ∧ ∃ ra : Byte, ra.toNat < 8 ∧
        (BytesAt s.mem s.pc.toNat (encode (.push ra)) ∨ BytesAt s.mem s.pc.toNat (encode (.call ra))))

/-! ### Rules about every instruction -/

/-- FL is written by no instruction but CMP (10_state.md R28, 41_alu.md R130). -/
def Obligations.OnlyCompareWritesTheFlags : Prop :=
  ∀ (i : Instr) (s t : State), exec i s = .next t → t.fl ≠ s.fl → ∃ ra rb, i = .cmp ra rb

/-- Memory is written by no instruction but PUSH and CALL, and by them at SP - 1 only (20_memory.md R53). -/
def Obligations.OnlyPushAndCallStore : Prop :=
  ∀ (i : Instr) (s t : State), exec i s = .next t → ∀ a, memRead t.mem a ≠ memRead s.mem a →
    a = (s.reg 7 - 1).toNat ∧ ∃ ra, i = .push ra ∨ i = .call ra

/-- An instruction writes no register but those of the access table's `writes` column (10_state.md R24): its destination, and
SP for PUSH, POP, CALL and RET. -/
def Obligations.RegistersWrittenAreThoseOfTheAccessTable : Prop :=
  ∀ (i : Instr) (s t : State), exec i s = .next t → ∀ r : Reg, (r : Nat) ∉ writtenRegisters i → t.reg r = s.reg r

/-- The output stream starts empty and is only appended to, one event a step: Dec of the register from a PRN, Chr from a PRA
(10_state.md R31). -/
def Obligations.OutputIsOnlyAppendedTo : Prop :=
  State.reset.out = [] ∧
  ∀ s t : State, step s = .next t →
    t.out = s.out ∨
    ∃ (ra : Byte) (ha : ra.toNat < 8),
      (BytesAt s.mem s.pc.toNat (encode (.prn ra)) ∧ t.out = s.out ++ [.dec (s.reg ⟨ra.toNat, ha⟩)]) ∨
      (BytesAt s.mem s.pc.toNat (encode (.pra ra)) ∧ t.out = s.out ++ [.chr (s.reg ⟨ra.toNat, ha⟩)])

/-- G, L and the meaningless bits of FL influence nothing: two states that differ only there step alike, and differ only there
again (10_state.md R28: "observable through no interface of the engine"). -/
def Obligations.UnreadFlagBitsInfluenceNothing : Prop :=
  ∀ (s t : State) (f : Byte), f.getLsbD 0 = s.fl.getLsbD 0 → step s = .next t →
    ∃ g : Byte, step { s with fl := f } = .next { t with fl := g } ∧ g.getLsbD 0 = t.fl.getLsbD 0

/-- Where the opcode's P bit is clear, an instruction other than HLT that completes advances the PC by 1 + N, N being the
opcode's operand count (40_execution_cycle.md R117, 30_encoding.md R81; 9 bits are the spec's decision D1, log 3). -/
def Obligations.PcAdvancesPastTheInstruction : Prop :=
  ∀ (i : Instr) (s t : State), s.run = .running → exec i s = .next t → t.run = .running →
    (opcodeFields (opcode i.mnemonic)).setsPc = false → i ≠ .hlt →
    t.pc = s.pc + 1 + BitVec.ofNat 9 (opcodeFields (opcode i.mnemonic)).operandCount

/-! ### ALU instructions (spec/41_alu.md) -/

/-- ADD, SUB and MUL complete for every two registers with the exact result modulo 256 in Ra, PC advanced by 3, and nothing else
changed (41_alu.md R130, R131, R132, R133). With Ra = Rb both operands are the value before the write. -/
def Obligations.AddSubMulGiveTheResultModulo256 : Prop :=
  ∀ (s : State) (ra rb : Byte) (ha : ra.toNat < 8) (hb : rb.toNat < 8),
    (∃ t, exec (.add ra rb) s = .next t ∧
      (t.reg ⟨ra.toNat, ha⟩).toNat = ((s.reg ⟨ra.toNat, ha⟩).toNat + (s.reg ⟨rb.toNat, hb⟩).toNat) % 256 ∧
      t.pc = s.pc + 3 ∧ OnlyRegisterChanges ⟨ra.toNat, ha⟩ s t) ∧
    (∃ t, exec (.sub ra rb) s = .next t ∧
      ((t.reg ⟨ra.toNat, ha⟩).toNat : Int) =
        (((s.reg ⟨ra.toNat, ha⟩).toNat : Int) - ((s.reg ⟨rb.toNat, hb⟩).toNat : Int)) % 256 ∧
      t.pc = s.pc + 3 ∧ OnlyRegisterChanges ⟨ra.toNat, ha⟩ s t) ∧
    (∃ t, exec (.mul ra rb) s = .next t ∧
      (t.reg ⟨ra.toNat, ha⟩).toNat = ((s.reg ⟨ra.toNat, ha⟩).toNat * (s.reg ⟨rb.toNat, hb⟩).toNat) % 256 ∧
      t.pc = s.pc + 3 ∧ OnlyRegisterChanges ⟨ra.toNat, ha⟩ s t)

/-- AND, OR and XOR complete for every two registers and act on each of the 8 bits, PC advanced by 3, and nothing else changed
(41_alu.md R130, R134, R135, R136). -/
def Obligations.AndOrXorActOnEachBit : Prop :=
  ∀ (s : State) (ra rb : Byte) (ha : ra.toNat < 8) (hb : rb.toNat < 8),
    (∃ t, exec (.and ra rb) s = .next t ∧
      (∀ k < 8, (t.reg ⟨ra.toNat, ha⟩).getLsbD k =
        ((s.reg ⟨ra.toNat, ha⟩).getLsbD k && (s.reg ⟨rb.toNat, hb⟩).getLsbD k)) ∧
      t.pc = s.pc + 3 ∧ OnlyRegisterChanges ⟨ra.toNat, ha⟩ s t) ∧
    (∃ t, exec (.or ra rb) s = .next t ∧
      (∀ k < 8, (t.reg ⟨ra.toNat, ha⟩).getLsbD k =
        ((s.reg ⟨ra.toNat, ha⟩).getLsbD k || (s.reg ⟨rb.toNat, hb⟩).getLsbD k)) ∧
      t.pc = s.pc + 3 ∧ OnlyRegisterChanges ⟨ra.toNat, ha⟩ s t) ∧
    (∃ t, exec (.xor ra rb) s = .next t ∧
      (∀ k < 8, (t.reg ⟨ra.toNat, ha⟩).getLsbD k =
        ((s.reg ⟨ra.toNat, ha⟩).getLsbD k ^^ (s.reg ⟨rb.toNat, hb⟩).getLsbD k)) ∧
      t.pc = s.pc + 3 ∧ OnlyRegisterChanges ⟨ra.toNat, ha⟩ s t)

/-- NOT completes for every register with 255 minus its value, PC advanced by 2, and nothing else changed (41_alu.md R137). -/
def Obligations.NotGivesTheComplement : Prop :=
  ∀ (s : State) (ra : Byte) (ha : ra.toNat < 8),
    ∃ t, exec (.not ra) s = .next t ∧
      (t.reg ⟨ra.toNat, ha⟩).toNat = 255 - (s.reg ⟨ra.toNat, ha⟩).toNat ∧
      t.pc = s.pc + 2 ∧ OnlyRegisterChanges ⟨ra.toNat, ha⟩ s t

/-- SHL and SHR complete for every two registers and use the whole amount in Rb, 0..255: `a * 2^b mod 256` and
`floor(a / 2^b)`, PC advanced by 3, and nothing else changed (41_alu.md R138, R139). -/
def Obligations.ShiftsUseTheWholeAmount : Prop :=
  ∀ (s : State) (ra rb : Byte) (ha : ra.toNat < 8) (hb : rb.toNat < 8),
    (∃ t, exec (.shl ra rb) s = .next t ∧
      (t.reg ⟨ra.toNat, ha⟩).toNat = ((s.reg ⟨ra.toNat, ha⟩).toNat * 2 ^ (s.reg ⟨rb.toNat, hb⟩).toNat) % 256 ∧
      t.pc = s.pc + 3 ∧ OnlyRegisterChanges ⟨ra.toNat, ha⟩ s t) ∧
    (∃ t, exec (.shr ra rb) s = .next t ∧
      (t.reg ⟨ra.toNat, ha⟩).toNat = (s.reg ⟨ra.toNat, ha⟩).toNat / 2 ^ (s.reg ⟨rb.toNat, hb⟩).toNat ∧
      t.pc = s.pc + 3 ∧ OnlyRegisterChanges ⟨ra.toNat, ha⟩ s t)

/-- MOD completes with the unsigned remainder where the divisor register is not 0, PC advanced by 3 and nothing else changed;
where it is 0 it raises DivideByZero with nothing but the run state changed (41_alu.md R140; precision of the error is the
spec's decision D7, log 10). -/
def Obligations.ModGivesTheRemainderOrRaises : Prop :=
  ∀ (s : State) (ra rb : Byte) (ha : ra.toNat < 8) (hb : rb.toNat < 8),
    (s.reg ⟨rb.toNat, hb⟩ ≠ 0 → ∃ t, exec (.mod ra rb) s = .next t ∧
      (t.reg ⟨ra.toNat, ha⟩).toNat = (s.reg ⟨ra.toNat, ha⟩).toNat % (s.reg ⟨rb.toNat, hb⟩).toNat ∧
      t.pc = s.pc + 3 ∧ OnlyRegisterChanges ⟨ra.toNat, ha⟩ s t) ∧
    (s.reg ⟨rb.toNat, hb⟩ = 0 → exec (.mod ra rb) s = .next (errorState .divideByZero s))

/-- CMP completes for every two registers and writes FL whole: 1 (E) for equal, 2 (G) for greater, 4 (L) for less, compared
unsigned; PC advanced by 3, no register, memory cell, event or run state changed (41_alu.md R141, 10_state.md R27; the G and
L direction is the spec's resolution C2, log 21). -/
def Obligations.CompareWritesFlagsWhole : Prop :=
  ∀ (s : State) (ra rb : Byte) (ha : ra.toNat < 8) (hb : rb.toNat < 8),
    ∃ t, exec (.cmp ra rb) s = .next t ∧
      ((s.reg ⟨ra.toNat, ha⟩).toNat = (s.reg ⟨rb.toNat, hb⟩).toNat → t.fl = 0x01) ∧
      ((s.reg ⟨ra.toNat, ha⟩).toNat > (s.reg ⟨rb.toNat, hb⟩).toNat → t.fl = 0x02) ∧
      ((s.reg ⟨ra.toNat, ha⟩).toNat < (s.reg ⟨rb.toNat, hb⟩).toNat → t.fl = 0x04) ∧
      t.pc = s.pc + 3 ∧ SameRegisters s t ∧ SameMemory s t ∧ t.run = s.run ∧ t.out = s.out ∧ t.cancel = s.cancel

/-! ### Load and output (spec/42_load_and_output.md) -/

/-- LDI completes for every register, SP too, and every immediate, with the immediate in Ra, PC advanced by 3, and nothing else
changed (42_load_and_output.md R160, 10_state.md R21). -/
def Obligations.LdiLoadsTheImmediate : Prop :=
  ∀ (s : State) (ra imm : Byte) (ha : ra.toNat < 8),
    ∃ t, exec (.ldi ra imm) s = .next t ∧ t.reg ⟨ra.toNat, ha⟩ = imm ∧
      t.pc = s.pc + 3 ∧ OnlyRegisterChanges ⟨ra.toNat, ha⟩ s t

/-- PRN and PRA complete for every register and every value in it, append one event Dec or Chr of that value, advance the PC by
2, and change nothing else (42_load_and_output.md R161, R162, 60_exceptions.md R212; codes 128..255 of PRA are the spec's
decision D14, log 16). -/
def Obligations.PrintAppendsOneEvent : Prop :=
  ∀ (s : State) (ra : Byte) (ha : ra.toNat < 8),
    (∃ t, exec (.prn ra) s = .next t ∧ t.out = s.out ++ [.dec (s.reg ⟨ra.toNat, ha⟩)] ∧
      t.pc = s.pc + 2 ∧ SameRegisters s t ∧ SameMemory s t ∧ t.fl = s.fl ∧ t.run = s.run ∧ t.cancel = s.cancel) ∧
    (∃ t, exec (.pra ra) s = .next t ∧ t.out = s.out ++ [.chr (s.reg ⟨ra.toNat, ha⟩)] ∧
      t.pc = s.pc + 2 ∧ SameRegisters s t ∧ SameMemory s t ∧ t.fl = s.fl ∧ t.run = s.run ∧ t.cancel = s.cancel)

/-! ### Stack (spec/43_stack.md) -/

/-- PUSH completes wherever SP is not 0: SP is decremented, Ra is stored at the new SP, and Ra = SP stores the decremented SP; PC
advanced by 2; no other register, no other byte of memory, no flag, event or run state changed (43_stack.md R170, R171;
PUSH R7 is the spec's decision D11, log 12). -/
def Obligations.PushStoresBelowTheStackPointer : Prop :=
  ∀ (s : State) (ra : Byte) (ha : ra.toNat < 8), s.reg 7 ≠ 0 →
    ∃ t, exec (.push ra) s = .next t ∧ (t.reg 7).toNat = (s.reg 7).toNat - 1 ∧
      memRead t.mem ((s.reg 7).toNat - 1) = .ok (if ra.toNat = 7 then s.reg 7 - 1 else s.reg ⟨ra.toNat, ha⟩) ∧
      (∀ a, a = pushAddress s → SameMemoryBut a s t) ∧ pushAddress s = (s.reg 7).toNat - 1 ∧
      t.pc = s.pc + 2 ∧ SameRegistersBut 7 s t ∧ SameRest s t

/-- POP completes in every state: the byte at SP goes to Ra and then SP is incremented modulo 256, so POP R7 leaves the byte plus
1; PC advanced by 2; no other register, no byte of memory, no flag, event or run state changed (43_stack.md R170, R173, R175;
POP R7 and SP = 255 are the spec's decisions D11 and D12, log 12 and log 13). -/
def Obligations.PopLoadsFromTheStackPointer : Prop :=
  ∀ (s : State) (ra : Byte) (ha : ra.toNat < 8),
    ∃ t v, exec (.pop ra) s = .next t ∧ memRead s.mem (s.reg 7).toNat = .ok v ∧
      (ra.toNat ≠ 7 → t.reg ⟨ra.toNat, ha⟩ = v ∧ (t.reg 7).toNat = ((s.reg 7).toNat + 1) % 256) ∧
      (ra.toNat = 7 → (t.reg 7).toNat = (v.toNat + 1) % 256) ∧
      t.pc = s.pc + 2 ∧ SameRegistersBut2 ⟨ra.toNat, ha⟩ 7 s t ∧ SameMemory s t ∧ SameRest s t

/-- PUSH and CALL of a register with SP = 0 enter UNDEFINED(StackUnderflow, p) and write nothing else (43_stack.md R172,
60_exceptions.md R206; the spec's decision D10, log 11; that nothing else is written is log 10 too). -/
def Obligations.PushAndCallAtZeroEnterUndefined : Prop :=
  ∀ (s : State) (ra : Byte), ra.toNat < 8 → s.reg 7 = 0 →
    exec (.push ra) s = .next (undefinedState .stackUnderflow s) ∧
    exec (.call ra) s = .next (undefinedState .stackUnderflow s)

/-- PUSH then POP of the same register, R7 too, brings every register back, SP with it, wherever SP is not 0 before
(43_stack.md R174; R7 is the spec's decision D11, log 12). -/
def Obligations.PushThenPopRoundTrips : Prop :=
  ∀ (s : State) (ra : Byte), ra.toNat < 8 → s.reg 7 ≠ 0 →
    ∃ t u, exec (.push ra) s = .next t ∧ exec (.pop ra) t = .next u ∧ SameRegisters s u ∧
      u.pc = s.pc + 4 ∧ SameRest s u

/-! ### Control transfer (spec/44_control_transfer.md) -/

/-- CALL completes wherever SP is not 0: SP is decremented, (p + 2) mod 256 is stored at the new SP, and the PC becomes Ra, read
after the push, so that CALL R7 jumps to the decremented SP; no other register, no other byte of memory, no flag, event or run
state changed (44_control_transfer.md R180, R186; CALL R7 and CALL at 254 are the spec's D11 and D30, log 12 and log 13). -/
def Obligations.CallPushesTheReturnAddress : Prop :=
  ∀ (s : State) (ra : Byte) (ha : ra.toNat < 8), s.reg 7 ≠ 0 →
    ∃ t, exec (.call ra) s = .next t ∧ (t.reg 7).toNat = (s.reg 7).toNat - 1 ∧
      (∃ v, memRead t.mem ((s.reg 7).toNat - 1) = .ok v ∧ v.toNat = (s.pc.toNat + 2) % 256) ∧
      t.pc.toNat = (if ra.toNat = 7 then (s.reg 7).toNat - 1 else (s.reg ⟨ra.toNat, ha⟩).toNat) ∧
      (∀ a, a = pushAddress s → SameMemoryBut a s t) ∧ pushAddress s = (s.reg 7).toNat - 1 ∧
      SameRegistersBut 7 s t ∧ SameRest s t

/-- RET completes in every state: the PC becomes the byte at SP and then SP is incremented modulo 256; no other register, no byte
of memory, no flag, event or run state changed (44_control_transfer.md R181, 43_stack.md R175; SP = 255 is the spec's decision
D12, log 13). -/
def Obligations.RetPopsTheReturnAddress : Prop :=
  ∀ s : State, ∃ t v, exec .ret s = .next t ∧ memRead s.mem (s.reg 7).toNat = .ok v ∧
    t.pc.toNat = v.toNat ∧ (t.reg 7).toNat = ((s.reg 7).toNat + 1) % 256 ∧
    SameRegistersBut 7 s t ∧ SameMemory s t ∧ SameRest s t

/-- A RET right after a CALL, wherever the CALL jumped to, continues at the byte after the CALL with every register as before it,
SP with them (44_control_transfer.md R180, R181, R186; from 254 the return address is 0, the spec's D30, log 13). -/
def Obligations.CallThenRetReturnsPastTheCall : Prop :=
  ∀ (s : State) (ra : Byte), ra.toNat < 8 → s.reg 7 ≠ 0 →
    ∃ t u, exec (.call ra) s = .next t ∧ exec .ret t = .next u ∧
      u.pc.toNat = (s.pc.toNat + 2) % 256 ∧ SameRegisters s u ∧ SameRest s u

/-- JMP completes for every register with its value as the PC and nothing else changed (44_control_transfer.md R182). -/
def Obligations.JmpSetsThePc : Prop :=
  ∀ (s : State) (ra : Byte) (ha : ra.toNat < 8),
    ∃ t, exec (.jmp ra) s = .next t ∧ t.pc.toNat = (s.reg ⟨ra.toNat, ha⟩).toNat ∧ OnlyPcChanges s t

/-- JEQ and JNE complete for every register and read bit 0 of FL alone: JEQ jumps to Ra where it is 1 and else past its own two
bytes, JNE the other way round; the PC that is not taken is not truncated, so from 254 it is 256; nothing else changed
(44_control_transfer.md R183, R184, R185; the 9-bit PC is the spec's decision D1, log 3; polarity: C6, log 22). -/
def Obligations.ConditionalJumpsFollowTheEqualFlag : Prop :=
  ∀ (s : State) (ra : Byte) (ha : ra.toNat < 8),
    (∃ t, exec (.jeq ra) s = .next t ∧ OnlyPcChanges s t ∧
      (s.fl.getLsbD 0 = true → t.pc.toNat = (s.reg ⟨ra.toNat, ha⟩).toNat) ∧
      (s.fl.getLsbD 0 = false → s.pc.toNat ≤ 254 → t.pc.toNat = s.pc.toNat + 2)) ∧
    (∃ t, exec (.jne ra) s = .next t ∧ OnlyPcChanges s t ∧
      (s.fl.getLsbD 0 = false → t.pc.toNat = (s.reg ⟨ra.toNat, ha⟩).toNat) ∧
      (s.fl.getLsbD 0 = true → s.pc.toNat ≤ 254 → t.pc.toNat = s.pc.toNat + 2))

/-- HLT completes in every state: the run state becomes HALTED and nothing else changes, the PC neither
(44_control_transfer.md R187). -/
def Obligations.HltChangesOnlyTheRunState : Prop :=
  ∀ s : State, exec .hlt s = .next { s with run := .halted }

/-! ### Reset and the host's interface (spec/70_reset_and_hazards.md, spec/60_exceptions.md) -/

/-- Construction leaves every cell 0, SP 0xF4, pc 0, no output, RUNNING (70_reset_and_hazards.md R230); R0..R6 and FL are 0 by
the spec's decisions D2 and D3, which are the model's choice (log 5, log 6). -/
def Obligations.ResetLeavesTheStatedValues : Prop :=
  (∀ a ≤ 255, memRead State.reset.mem a = .ok 0x00) ∧ State.reset.reg 7 = 0xF4 ∧ State.reset.pc = 0 ∧
  State.reset.out = [] ∧ State.reset.run = .running ∧
  (∀ r : Reg, r ≠ 7 → State.reset.reg r = 0x00) ∧ State.reset.fl = 0x00

/-- An image of at most 256 bytes is written from address 0 on, the cells behind it stay 0 and the rest is as constructed; a longer
one is LoadError at 0 with no byte written (70_reset_and_hazards.md R231, 60_exceptions.md R204; the spec's decisions D22 and
D23, log 19). -/
def Obligations.LoadWritesTheImageOrRaisesLoadError : Prop :=
  ∀ image : List Byte,
    (image.length ≤ 256 →
      (∀ a ≤ 255, memRead (boot image).mem a = .ok (image.getD a 0x00)) ∧
      boot image = { State.reset with mem := (boot image).mem }) ∧
    (256 < image.length → boot image = { State.reset with run := .error .loadError 0 })

/-- The trace snapshot shows the PC, the registers, and each of the three bytes from the PC on, absent exactly beyond address 255;
FL, the run state and the output are not in it (60_exceptions.md R214, 20_memory.md R63; the spec's decision D21, log 18). -/
def Obligations.SnapshotShowsPcBytesAndRegisters : Prop :=
  ∀ s : State,
    s.snapshot.pc = s.pc ∧ s.snapshot.x = s.x ∧
    (∀ v, s.snapshot.next0 = some v ↔ memRead s.mem s.pc.toNat = .ok v) ∧
    (∀ v, s.snapshot.next1 = some v ↔ memRead s.mem (s.pc.toNat + 1) = .ok v) ∧
    (∀ v, s.snapshot.next2 = some v ↔ memRead s.mem (s.pc.toNat + 2) = .ok v) ∧
    (s.snapshot.next0 = none ↔ 256 ≤ s.pc.toNat) ∧
    (s.snapshot.next1 = none ↔ 256 ≤ s.pc.toNat + 1) ∧
    (s.snapshot.next2 = none ↔ 256 ≤ s.pc.toNat + 2) ∧
    ∀ (f : Byte) (r : RunState) (o : List OutEvent),
      State.snapshot { s with fl := f, run := r, out := o } = s.snapshot

/-- The parameter PREFETCH_OPERANDS matters only to an instruction in the last two bytes of memory: elsewhere fetching with it and
without it agree; there, with it, everything but HLT and a byte of operand count 3 raises OutOfRange (92_eei_decisions.md D24,
40_execution_cycle.md R114; log 20). -/
def Obligations.PrefetchMattersOnlyInTheLastTwoBytes : Prop :=
  ∀ (m : Memory) (p : Nat),
    (p ≤ 253 → fetchInstr true m p = fetchInstr false m p) ∧
    (∀ op, 254 ≤ p → memRead m p = .ok op → op ≠ 0x01 → op.toNat / 64 ≠ 3 →
      fetchInstr true m p = .error .outOfRange)
end

