-- ==== Sys2Proof/Laws/Decode.lean ====
section
/-! SUPPORT. The small lemmas of the decoder: each operation's opcode byte looks up to it, and to nothing else. -/

namespace Sys2Proof

/-- The two transcriptions of the opcode map agree: the dispatch tables of R86 map the byte of R84 to its operation. -/
theorem lookupOpcode_opcode (m : Mnemonic) : lookupOpcode (opcode m) = .ok m := by
  cases m <;> decide

/-- No other byte looks up to an operation. -/
theorem eq_opcode_of_lookupOpcode {b : Byte} {m : Mnemonic} (h : lookupOpcode b = .ok m) : b = opcode m := by
  unfold lookupOpcode at h
  split at h
  · split at h
    · cases h
    · split at h
      · rename_i heq; cases h; exact heq.symm
      · cases h
  · split at h
    · cases h
    · rename_i m' hm
      cases h
      simp only [generalTable, List.lookup] at hm
      revert hm
      repeat' split
      all_goals first
        | (rename_i hb; intro hm; cases hm; exact eq_of_beq hb)
        | (intro hm; cases hm)

/-- The operand count field of an operation's opcode byte is never 3 (30_encoding.md R81, R84). -/
theorem opcode_operandCount_ne_three (m : Mnemonic) : (opcodeFields (opcode m)).operandCount ≠ 3 := by
  cases m <;> decide

/-- Only HLT's opcode byte is the halt code. -/
theorem opcode_eq_haltCode_iff (m : Mnemonic) : opcode m = haltCode ↔ m = .hlt := by
  cases m <;> decide

/-- An instruction has as many operand bytes as its opcode's operand count field says (30_encoding.md R80). -/
theorem operandBytes_length (i : Instr) :
    i.operandBytes.length = (opcodeFields (opcode i.mnemonic)).operandCount := by
  cases i <;> simp only [Instr.operandBytes, Instr.registerOperands, Instr.mnemonic, List.length_cons, List.length_nil] <;>
    decide

/-- What a decoded byte sequence looks like: its opcode byte is legal, its operand bytes are present. -/
theorem decode_eq_ok {bs rest : List Byte} {i : Instr} (h : decode bs = .ok (i, rest)) :
    ∃ op tail m, bs = op :: tail ∧ op = opcode m ∧ (opcodeFields op).operandCount ≤ tail.length ∧
      i = Instr.assemble (tail.getD 0 0) (tail.getD 1 0) m ∧ rest = tail.drop (opcodeFields op).operandCount := by
  unfold decode at h
  split at h
  · cases h
  · rename_i op tail
    split at h
    · rename_i hop
      cases h
      have h0 : (opcodeFields haltCode).operandCount = 0 := by decide
      subst hop
      exact ⟨haltCode, rest, .hlt, rfl, rfl, by omega, rfl, by simp [h0]⟩
    · split at h
      · cases h
      · split at h
        · cases h
        · rename_i hlen
          split at h
          · cases h
          · rename_i m hm
            cases h
            exact ⟨op, tail, m, rfl, eq_opcode_of_lookupOpcode hm, Nat.le_of_not_lt hlen, rfl, rfl⟩

/-- A legal opcode byte with enough bytes behind it decodes to its operation's instruction. -/
theorem decode_opcode (m : Mnemonic) (tail : List Byte) (h : (opcodeFields (opcode m)).operandCount ≤ tail.length) :
    decode (opcode m :: tail) =
      .ok (Instr.assemble (tail.getD 0 0) (tail.getD 1 0) m, tail.drop (opcodeFields (opcode m)).operandCount) := by
  by_cases hm : opcode m = haltCode
  · have h0 : (opcodeFields (opcode .hlt)).operandCount = 0 := by decide
    rw [decode, if_pos hm, (opcode_eq_haltCode_iff m).mp hm, h0]
    rfl
  · rw [decode, if_neg hm, if_neg (opcode_operandCount_ne_three m), if_neg (Nat.not_lt.mpr h), lookupOpcode_opcode]

/-- Assembling an operation and its operand bytes gives an instruction of that operation. -/
@[simp] theorem assemble_mnemonic (m : Mnemonic) (opA opB : Byte) : (Instr.assemble opA opB m).mnemonic = m := by
  cases m <;> rfl

end Sys2Proof
end

