-- ==== Sys2Proof/Laws/Memory.lean ====
section
/-! SUPPORT. The laws of memory: read after write, the canonical form is kept, canonical memories that read alike are equal. -/

namespace Sys2Proof.Machine

@[simp] theorem memSize_eq : Config.memSize = 256 := rfl

@[simp] theorem nreg_eq : Config.nreg = 8 := rfl

@[simp] theorem Memory.get_nil (a : Nat) : Memory.get [] a = Config.memReset := rfl

theorem Memory.get_cons (c : Host.Cell) (m : Memory) (a : Nat) :
    Memory.get (c :: m) a = if a = c.1 then c.2 else Memory.get m a := by
  obtain ⟨k, v⟩ := c
  by_cases h : a = k
  · subst h; simp [Memory.get, List.lookup]
  · simp [Memory.get, List.lookup, h, beq_eq_false_iff_ne.mpr h]

theorem Memory.get_insertCell (m : Memory) (a b : Nat) (v : Byte) (h : ∀ c ∈ m, c.1 ≠ a) :
    Memory.get (Memory.insertCell a v m) b = if b = a then v else Memory.get m b := by
  induction m with
  | nil => simp [Memory.insertCell, Memory.get_cons]
  | cons c m ih =>
    have hc : c.1 ≠ a := h c (by simp)
    have ih := ih fun d hd => h d (by simp [hd])
    unfold Memory.insertCell
    split
    · rw [Memory.get_cons]
    · rw [Memory.get_cons, ih, Memory.get_cons]
      by_cases hb : b = a
      · subst hb; simp [Ne.symm hc]
      · simp [hb]

theorem Memory.get_filter (m : Memory) (a b : Nat) :
    Memory.get (m.filter (fun c => c.1 != a)) b = if b = a then Config.memReset else Memory.get m b := by
  induction m with
  | nil => simp
  | cons c m ih =>
    by_cases hc : c.1 = a
    · subst hc
      simp only [List.filter, bne_self_eq_false, ih, Memory.get_cons]
      split <;> simp_all
    · have : (c.1 != a) = true := by simp [hc]
      simp only [List.filter, this, Memory.get_cons, ih]
      by_cases hb : b = a
      · subst hb; simp [Ne.symm hc]
      · simp [hb]

/-- Read after write: the written cell holds the value, every other cell is as it was (20_memory.md R52). -/
@[simp] theorem Memory.get_set (m : Memory) (a b : Nat) (v : Byte) :
    (m.set a v).get b = if b = a then v else m.get b := by
  unfold Memory.set
  split
  · rename_i hv
    rw [Memory.get_filter, hv]
  · rw [Memory.get_insertCell _ _ _ _ (by simp), Memory.get_filter]
    split <;> rfl

theorem Memory.mem_insertCell (m : Memory) (a : Nat) (v : Byte) (c : Host.Cell) :
    c ∈ Memory.insertCell a v m ↔ c = (a, v) ∨ c ∈ m := by
  induction m with
  | nil => simp [Memory.insertCell]
  | cons d m ih =>
    unfold Memory.insertCell
    split
    · simp
    · simp [ih]; tauto

theorem Memory.pairwise_insertCell (m : Memory) (a : Nat) (v : Byte)
    (hm : m.Pairwise (fun c d => c.1 < d.1)) (h : ∀ c ∈ m, c.1 ≠ a) :
    (Memory.insertCell a v m).Pairwise (fun c d => c.1 < d.1) := by
  induction m with
  | nil => simp [Memory.insertCell]
  | cons c m ih =>
    obtain ⟨hc, hm'⟩ := List.pairwise_cons.mp hm
    unfold Memory.insertCell
    split
    · rename_i hlt
      refine List.pairwise_cons.mpr ⟨?_, hm⟩
      intro d hd
      rcases List.mem_cons.mp hd with rfl | hd
      · exact hlt
      · exact Nat.lt_trans hlt (hc d hd)
    · rename_i hge
      refine List.pairwise_cons.mpr ⟨?_, ih hm' fun d hd => h d (by simp [hd])⟩
      intro d hd
      rcases (Memory.mem_insertCell _ _ _ _).mp hd with rfl | hd
      · exact Nat.lt_of_le_of_ne (Nat.not_lt.mp hge) (h c (by simp))
      · exact hc d hd

/-- Every write to an address that exists keeps the canonical form. -/
theorem Memory.wf_set {m : Memory} (hm : m.wf) {a : Nat} (ha : a < Config.memSize) (v : Byte) : (m.set a v).wf := by
  obtain ⟨hp, hc⟩ := hm
  have hp' : (m.filter (fun c => c.1 != a)).Pairwise (fun c d => c.1 < d.1) := hp.filter _
  have hc' : ∀ c ∈ m.filter (fun c => c.1 != a), c.1 < Config.memSize ∧ c.2 ≠ Config.memReset :=
    fun c h => hc c (List.mem_of_mem_filter h)
  unfold Memory.set
  split
  · exact ⟨hp', hc'⟩
  · rename_i hv
    refine ⟨Memory.pairwise_insertCell _ _ _ hp' (by simp), fun c h => ?_⟩
    rcases (Memory.mem_insertCell _ _ _ _).mp h with rfl | h
    · exact ⟨ha, hv⟩
    · exact hc' c h

/-- The empty list, which is memory after construction, is canonical. -/
theorem Memory.wf_nil : Memory.wf [] := by simp [Memory.wf]

/-- MemWrite keeps the canonical form. -/
theorem memWrite_wf {m m' : Memory} {a : Nat} {v : Byte} (hm : m.wf) (h : memWrite m a v = .ok m') : m'.wf := by
  unfold memWrite at h
  split at h
  · rename_i ha
    cases h
    exact Memory.wf_set hm ha v
  · cases h

/-- Storing a sequence of bytes keeps the canonical form. -/
theorem storeBytes_wf (bs : List Byte) {m : Memory} (a : Nat) (hm : m.wf) : (storeBytes m a bs).wf := by
  induction bs generalizing m a with
  | nil => exact hm
  | cons b bs ih =>
    unfold storeBytes
    apply ih
    split
    · rename_i ha
      exact Memory.wf_set hm ha b
    · exact hm

theorem memRead_of_lt {m : Memory} {a : Nat} (h : a < 256) : memRead m a = .ok (m.get a) := if_pos h

theorem memRead_of_ge {m : Memory} {a : Nat} (h : 256 ≤ a) : memRead m a = .error .outOfRange :=
  if_neg (Nat.not_lt.mpr h)

theorem memRead_eq_ok_iff {m : Memory} {a : Nat} {v : Byte} :
    memRead m a = .ok v ↔ a < 256 ∧ m.get a = v := by
  by_cases h : a < 256 <;> simp [memRead, h]

theorem memWrite_of_lt {m : Memory} {a : Nat} {v : Byte} (h : a < 256) : memWrite m a v = .ok (m.set a v) := if_pos h

theorem memWrite_of_ge {m : Memory} {a : Nat} {v : Byte} (h : 256 ≤ a) : memWrite m a v = .error .outOfRange :=
  if_neg (Nat.not_lt.mpr h)

/-- Reading any address after one cell has been changed. -/
theorem memRead_set (m : Memory) (a b : Nat) (v : Byte) :
    memRead (m.set a v) b = if b = a ∧ b < 256 then .ok v else memRead m b := by
  by_cases h : b = a
  · subst h; by_cases hb : b < 256 <;> simp [memRead, hb]
  · simp [memRead, h]

/-- Reading a cell after storing a sequence of bytes at 0..255. -/
theorem storeBytes_get (bs : List Byte) (m : Memory) (a b : Nat) (hb : b < 256) :
    (storeBytes m a bs).get b = if a ≤ b ∧ b < a + bs.length then bs.getD (b - a) 0 else m.get b := by
  induction bs generalizing m a with
  | nil => simp [storeBytes]
  | cons c bs ih =>
    unfold storeBytes
    rw [ih]
    by_cases h1 : a + 1 ≤ b ∧ b < a + 1 + bs.length
    · have h2 : a ≤ b ∧ b < a + (c :: bs).length := by simp; omega
      rw [if_pos h1, if_pos h2]
      have : b - a = (b - (a + 1)) + 1 := by omega
      rw [this]; simp
    · rw [if_neg h1]
      by_cases h3 : b = a
      · subst h3
        simp [hb]
      · have h2 : ¬(a ≤ b ∧ b < a + (c :: bs).length) := by simp; omega
        rw [if_neg h2]
        split <;> simp [h3]

end Sys2Proof.Machine
end

