-- ==== Sys2Proof/Laws/State.lean ====
section
/-! SUPPORT. One lemma per field per update of State, and the normal form of the derived accessors. -/

namespace Sys2Proof.Machine

/-! ### Derived updates and accessors rewrite to the basic ones -/

@[simp] theorem State.sp_eq (s : State) : s.sp = s.reg 7 := rfl

@[simp] theorem State.setSp_eq (s : State) (v : Byte) : s.setSp v = s.setReg 7 v := rfl

@[simp] theorem State.jumpTo_eq (s : State) (v : Byte) : s.jumpTo v = s.setPc (v.setWidth 9) := rfl

@[simp] theorem State.advance_eq (s : State) (n : Nat) : s.advance n = s.setPc (s.pc + 1 + BitVec.ofNat 9 n) := rfl

/-! ### setReg -/

@[simp] theorem State.setReg_mem (s : State) (i : Reg) (v : Byte) : (s.setReg i v).mem = s.mem := rfl

@[simp] theorem State.setReg_x (s : State) (i : Reg) (v : Byte) : (s.setReg i v).x = s.x.set i v := rfl

@[simp] theorem State.setReg_pc (s : State) (i : Reg) (v : Byte) : (s.setReg i v).pc = s.pc := rfl

@[simp] theorem State.setReg_fl (s : State) (i : Reg) (v : Byte) : (s.setReg i v).fl = s.fl := rfl

@[simp] theorem State.setReg_run (s : State) (i : Reg) (v : Byte) : (s.setReg i v).run = s.run := rfl

@[simp] theorem State.setReg_out (s : State) (i : Reg) (v : Byte) : (s.setReg i v).out = s.out := rfl

@[simp] theorem State.setReg_cancel (s : State) (i : Reg) (v : Byte) : (s.setReg i v).cancel = s.cancel := rfl

/-! ### setPc -/

@[simp] theorem State.setPc_mem (s : State) (t : Pc) : (s.setPc t).mem = s.mem := rfl

@[simp] theorem State.setPc_x (s : State) (t : Pc) : (s.setPc t).x = s.x := rfl

@[simp] theorem State.setPc_pc (s : State) (t : Pc) : (s.setPc t).pc = t := rfl

@[simp] theorem State.setPc_fl (s : State) (t : Pc) : (s.setPc t).fl = s.fl := rfl

@[simp] theorem State.setPc_run (s : State) (t : Pc) : (s.setPc t).run = s.run := rfl

@[simp] theorem State.setPc_out (s : State) (t : Pc) : (s.setPc t).out = s.out := rfl

@[simp] theorem State.setPc_cancel (s : State) (t : Pc) : (s.setPc t).cancel = s.cancel := rfl

@[simp] theorem State.setPc_reg (s : State) (t : Pc) (r : Reg) : (s.setPc t).reg r = s.reg r := rfl

/-! ### setFl -/

@[simp] theorem State.setFl_mem (s : State) (v : Byte) : (s.setFl v).mem = s.mem := rfl

@[simp] theorem State.setFl_x (s : State) (v : Byte) : (s.setFl v).x = s.x := rfl

@[simp] theorem State.setFl_pc (s : State) (v : Byte) : (s.setFl v).pc = s.pc := rfl

@[simp] theorem State.setFl_fl (s : State) (v : Byte) : (s.setFl v).fl = v := rfl

@[simp] theorem State.setFl_run (s : State) (v : Byte) : (s.setFl v).run = s.run := rfl

@[simp] theorem State.setFl_out (s : State) (v : Byte) : (s.setFl v).out = s.out := rfl

@[simp] theorem State.setFl_cancel (s : State) (v : Byte) : (s.setFl v).cancel = s.cancel := rfl

@[simp] theorem State.setFl_reg (s : State) (v : Byte) (r : Reg) : (s.setFl v).reg r = s.reg r := rfl

/-! ### setMem -/

@[simp] theorem State.setMem_mem (s : State) (m : Memory) : (s.setMem m).mem = m := rfl

@[simp] theorem State.setMem_x (s : State) (m : Memory) : (s.setMem m).x = s.x := rfl

@[simp] theorem State.setMem_pc (s : State) (m : Memory) : (s.setMem m).pc = s.pc := rfl

@[simp] theorem State.setMem_fl (s : State) (m : Memory) : (s.setMem m).fl = s.fl := rfl

@[simp] theorem State.setMem_run (s : State) (m : Memory) : (s.setMem m).run = s.run := rfl

@[simp] theorem State.setMem_out (s : State) (m : Memory) : (s.setMem m).out = s.out := rfl

@[simp] theorem State.setMem_cancel (s : State) (m : Memory) : (s.setMem m).cancel = s.cancel := rfl

@[simp] theorem State.setMem_reg (s : State) (m : Memory) (r : Reg) : (s.setMem m).reg r = s.reg r := rfl

/-! ### setRun -/

@[simp] theorem State.setRun_mem (s : State) (r : RunState) : (s.setRun r).mem = s.mem := rfl

@[simp] theorem State.setRun_x (s : State) (r : RunState) : (s.setRun r).x = s.x := rfl

@[simp] theorem State.setRun_pc (s : State) (r : RunState) : (s.setRun r).pc = s.pc := rfl

@[simp] theorem State.setRun_fl (s : State) (r : RunState) : (s.setRun r).fl = s.fl := rfl

@[simp] theorem State.setRun_run (s : State) (r : RunState) : (s.setRun r).run = r := rfl

@[simp] theorem State.setRun_out (s : State) (r : RunState) : (s.setRun r).out = s.out := rfl

@[simp] theorem State.setRun_cancel (s : State) (r : RunState) : (s.setRun r).cancel = s.cancel := rfl

@[simp] theorem State.setRun_reg (s : State) (r : RunState) (j : Reg) : (s.setRun r).reg j = s.reg j := rfl

/-! ### emit -/

@[simp] theorem State.emit_mem (s : State) (e : OutEvent) : (s.emit e).mem = s.mem := rfl

@[simp] theorem State.emit_x (s : State) (e : OutEvent) : (s.emit e).x = s.x := rfl

@[simp] theorem State.emit_pc (s : State) (e : OutEvent) : (s.emit e).pc = s.pc := rfl

@[simp] theorem State.emit_fl (s : State) (e : OutEvent) : (s.emit e).fl = s.fl := rfl

@[simp] theorem State.emit_run (s : State) (e : OutEvent) : (s.emit e).run = s.run := rfl

@[simp] theorem State.emit_out (s : State) (e : OutEvent) : (s.emit e).out = s.out ++ [e] := rfl

@[simp] theorem State.emit_cancel (s : State) (e : OutEvent) : (s.emit e).cancel = s.cancel := rfl

@[simp] theorem State.emit_reg (s : State) (e : OutEvent) (r : Reg) : (s.emit e).reg r = s.reg r := rfl

/-! ### nextSample -/

@[simp] theorem State.nextSample_mem (s : State) : s.nextSample.mem = s.mem := rfl

@[simp] theorem State.nextSample_x (s : State) : s.nextSample.x = s.x := rfl

@[simp] theorem State.nextSample_pc (s : State) : s.nextSample.pc = s.pc := rfl

@[simp] theorem State.nextSample_fl (s : State) : s.nextSample.fl = s.fl := rfl

@[simp] theorem State.nextSample_run (s : State) : s.nextSample.run = s.run := rfl

@[simp] theorem State.nextSample_out (s : State) : s.nextSample.out = s.out := rfl

@[simp] theorem State.nextSample_cancel (s : State) : s.nextSample.cancel = s.cancel.tail := rfl

@[simp] theorem State.nextSample_reg (s : State) (r : Reg) : s.nextSample.reg r = s.reg r := rfl

/-! ### Reading a register after writing one -/

@[simp] theorem State.setReg_reg (s : State) (i j : Reg) (v : Byte) :
    (s.setReg i v).reg j = if j = i then v else s.reg j := by
  by_cases h : j = i
  · subst h; simp [State.reg, State.setReg]
  · have h' : (i : Nat) ≠ (j : Nat) := fun e => h (Fin.ext e.symm)
    simp [State.reg, State.setReg, h, Vector.getElem_set_ne _ _ h']

/-- Two states agree on all registers exactly when their register files are equal. -/
theorem State.x_eq_of_reg_eq {s t : State} (h : ∀ r, t.reg r = s.reg r) : t.x = s.x := by
  apply Vector.ext
  intro i hi
  exact h ⟨i, hi⟩

/-- A state is its seven fields. -/
theorem State.eq_of_fields {s t : State} (hm : s.mem = t.mem) (hx : s.x = t.x) (hp : s.pc = t.pc) (hf : s.fl = t.fl)
    (hr : s.run = t.run) (ho : s.out = t.out) (hc : s.cancel = t.cancel) : s = t := by
  cases s; cases t; simp_all

end Sys2Proof.Machine
end

