-- ==== Sys2Proof/Laws/Ops.lean ====
section
/-! SUPPORT. What each shared operation does, said once: ending an instruction, register operands, the ALU shapes, output, push, pop and the conditional jump. -/

namespace Sys2Proof.Machine

/-! ### Sequencing -/

@[simp] theorem ok_bind_eq {ε α β : Type} (a : α) (f : α → Except ε β) : (Except.ok a >>= f) = f a := rfl

@[simp] theorem error_bind_eq {ε α β : Type} (e : ε) (f : α → Except ε β) : (Except.error e >>= f) = .error e := rfl

@[simp] theorem pure_eq_ok {ε α : Type} (a : α) : (pure a : Except ε α) = .ok a := rfl

@[simp] theorem throw_eq_error {ε α : Type} (e : ε) : (throw e : Except ε α) = .error e := rfl

/-! ### Ending an instruction -/

theorem settle_ok (s t : State) : settle s (.ok t) = .next t := rfl

theorem settle_error (s : State) (k : ErrorKind) : settle s (.error (.error k)) = .next (s.setRun (.error k s.pc)) := rfl

theorem settle_undefined (s : State) (u : UndefinedReason) :
    settle s (.error (.undefined u)) = .next (s.setRun (.undefined u s.pc)) := rfl

/-- Everything the end of an instruction can be: it completed, or nothing but the run state changed. -/
theorem settle_cases {s t : State} {r : Except Stop State} (h : settle s r = .next t) :
    r = .ok t ∨ (∃ k, r = .error (.error k) ∧ t = s.setRun (.error k s.pc)) ∨
      (∃ u, r = .error (.undefined u) ∧ t = s.setRun (.undefined u s.pc)) := by
  rcases r with (k | u) | t'
  · cases h; exact .inr (.inl ⟨k, rfl, rfl⟩)
  · cases h; exact .inr (.inr ⟨u, rfl, rfl⟩)
  · cases h; exact .inl rfl

/-- An instruction always ends in a next state. -/
theorem settle_answers (s : State) (r : Except Stop State) : ∃ t, settle s r = .next t := by
  rcases r with (k | u) | t'
  · exact ⟨_, rfl⟩
  · exact ⟨_, rfl⟩
  · exact ⟨_, rfl⟩

/-! ### Register operands -/

theorem registerOperand_of_lt {r : Byte} (h : r.toNat < 8) : registerOperand r = .ok ⟨r.toNat, h⟩ := dif_pos h

theorem registerOperand_of_ge {r : Byte} (h : 8 ≤ r.toNat) : registerOperand r = .error (.error .outOfRange) :=
  dif_neg (Nat.not_lt.mpr h)

/-- A register operand is a register's number, or the instruction raises OutOfRange. -/
theorem registerOperand_cases (r : Byte) :
    (∃ h : r.toNat < 8, registerOperand r = .ok ⟨r.toNat, h⟩) ∨
      (8 ≤ r.toNat ∧ registerOperand r = .error (.error .outOfRange)) := by
  by_cases h : r.toNat < 8
  · exact .inl ⟨h, registerOperand_of_lt h⟩
  · exact .inr ⟨Nat.le_of_not_lt h, registerOperand_of_ge (Nat.le_of_not_lt h)⟩

/-! ### The shapes of the meanings, on operands that name registers -/

theorem aluBinary_of_lt (f : Byte → Byte → Byte) {ra rb : Byte} (s : State) (ha : ra.toNat < 8) (hb : rb.toNat < 8) :
    aluBinary f ra rb s =
      .ok ((s.setReg ⟨ra.toNat, ha⟩ (f (s.reg ⟨ra.toNat, ha⟩) (s.reg ⟨rb.toNat, hb⟩))).advance 2) := by
  simp only [aluBinary, registerOperand_of_lt ha, registerOperand_of_lt hb, ok_bind_eq, pure_eq_ok]

theorem aluUnary_of_lt (f : Byte → Byte) {ra : Byte} (s : State) (ha : ra.toNat < 8) :
    aluUnary f ra s = .ok ((s.setReg ⟨ra.toNat, ha⟩ (f (s.reg ⟨ra.toNat, ha⟩))).advance 1) := by
  simp only [aluUnary, registerOperand_of_lt ha, ok_bind_eq, pure_eq_ok]

theorem emitRegister_of_lt (e : Byte → OutEvent) {ra : Byte} (s : State) (ha : ra.toNat < 8) :
    emitRegister e ra s = .ok ((s.emit (e (s.reg ⟨ra.toNat, ha⟩))).advance 1) := by
  simp only [emitRegister, registerOperand_of_lt ha, ok_bind_eq, pure_eq_ok]

theorem jumpWhenEqualFlagIs_of_lt (e : Bool) {ra : Byte} (s : State) (ha : ra.toNat < 8) :
    jumpWhenEqualFlagIs e ra s = .ok (if s.equalFlag = e then s.jumpTo (s.reg ⟨ra.toNat, ha⟩) else s.advance 1) := by
  simp only [jumpWhenEqualFlagIs, registerOperand_of_lt ha, ok_bind_eq, pure_eq_ok]

/-! ### The stack -/

/-- A push with SP = 0 is the undefined case, whatever is pushed (43_stack.md R172). -/
theorem pushByte_of_sp_zero (v : State → Byte) {s : State} (h : s.reg 7 = 0) :
    pushByte v s = .error (.undefined .stackUnderflow) := if_pos h

/-- Any other push stores one byte at SP - 1 and never raises (43_stack.md R171). -/
theorem pushByte_of_sp_ne_zero (v : State → Byte) {s : State} (h : s.reg 7 ≠ 0) :
    pushByte v s = .ok ((s.setReg 7 (s.reg 7 - 1)).setMem
      (s.mem.set (s.reg 7 - 1).toNat (v (s.setReg 7 (s.reg 7 - 1))))) := by
  have hlt : (s.reg 7 - 1).toNat < 256 := (s.reg 7 - 1).isLt
  simp only [pushByte, State.sp_eq, h, if_false, State.setSp_eq, pushAddress, State.setReg_mem, memWrite_of_lt hlt]

/-- A pop reads the byte at SP, stores it, then increments SP, and never raises (43_stack.md R173). -/
theorem popByte_eq (store : Byte → State → State) (s : State) :
    popByte store s = .ok ((store (s.mem.get (s.reg 7).toNat) s).setReg 7
      ((store (s.mem.get (s.reg 7).toNat) s).reg 7 + 1)) := by
  have hlt : (s.reg 7).toNat < 256 := (s.reg 7).isLt
  simp only [popByte, State.sp_eq, memRead_of_lt hlt, orRaise, ok_bind_eq, State.setSp_eq, pure_eq_ok]

end Sys2Proof.Machine
end

