-- ==== Sys2Proof/Laws/Exec.lean ====
section
/-! SUPPORT. What each meaning does on operands that name registers, one equation each, and everything that `exec` can answer. -/

namespace Sys2Proof.Machine

/-! ### ALU -/

theorem exec_add {ra rb : Byte} (s : State) (ha : ra.toNat < 8) (hb : rb.toNat < 8) :
    exec (.add ra rb) s =
      .next ((s.setReg ⟨ra.toNat, ha⟩ (addBytes (s.reg ⟨ra.toNat, ha⟩) (s.reg ⟨rb.toNat, hb⟩))).advance 2) := by
  rw [exec, execAdd, aluBinary_of_lt _ _ ha hb, settle_ok]

theorem exec_sub {ra rb : Byte} (s : State) (ha : ra.toNat < 8) (hb : rb.toNat < 8) :
    exec (.sub ra rb) s =
      .next ((s.setReg ⟨ra.toNat, ha⟩ (subBytes (s.reg ⟨ra.toNat, ha⟩) (s.reg ⟨rb.toNat, hb⟩))).advance 2) := by
  rw [exec, execSub, aluBinary_of_lt _ _ ha hb, settle_ok]

theorem exec_mul {ra rb : Byte} (s : State) (ha : ra.toNat < 8) (hb : rb.toNat < 8) :
    exec (.mul ra rb) s =
      .next ((s.setReg ⟨ra.toNat, ha⟩ (mulBytes (s.reg ⟨ra.toNat, ha⟩) (s.reg ⟨rb.toNat, hb⟩))).advance 2) := by
  rw [exec, execMul, aluBinary_of_lt _ _ ha hb, settle_ok]

theorem exec_and {ra rb : Byte} (s : State) (ha : ra.toNat < 8) (hb : rb.toNat < 8) :
    exec (.and ra rb) s =
      .next ((s.setReg ⟨ra.toNat, ha⟩ (andBytes (s.reg ⟨ra.toNat, ha⟩) (s.reg ⟨rb.toNat, hb⟩))).advance 2) := by
  rw [exec, execAnd, aluBinary_of_lt _ _ ha hb, settle_ok]

theorem exec_or {ra rb : Byte} (s : State) (ha : ra.toNat < 8) (hb : rb.toNat < 8) :
    exec (.or ra rb) s =
      .next ((s.setReg ⟨ra.toNat, ha⟩ (orBytes (s.reg ⟨ra.toNat, ha⟩) (s.reg ⟨rb.toNat, hb⟩))).advance 2) := by
  rw [exec, execOr, aluBinary_of_lt _ _ ha hb, settle_ok]

theorem exec_xor {ra rb : Byte} (s : State) (ha : ra.toNat < 8) (hb : rb.toNat < 8) :
    exec (.xor ra rb) s =
      .next ((s.setReg ⟨ra.toNat, ha⟩ (xorBytes (s.reg ⟨ra.toNat, ha⟩) (s.reg ⟨rb.toNat, hb⟩))).advance 2) := by
  rw [exec, execXor, aluBinary_of_lt _ _ ha hb, settle_ok]

theorem exec_shl {ra rb : Byte} (s : State) (ha : ra.toNat < 8) (hb : rb.toNat < 8) :
    exec (.shl ra rb) s =
      .next ((s.setReg ⟨ra.toNat, ha⟩ (shlBytes (s.reg ⟨ra.toNat, ha⟩) (s.reg ⟨rb.toNat, hb⟩))).advance 2) := by
  rw [exec, execShl, aluBinary_of_lt _ _ ha hb, settle_ok]

theorem exec_shr {ra rb : Byte} (s : State) (ha : ra.toNat < 8) (hb : rb.toNat < 8) :
    exec (.shr ra rb) s =
      .next ((s.setReg ⟨ra.toNat, ha⟩ (shrBytes (s.reg ⟨ra.toNat, ha⟩) (s.reg ⟨rb.toNat, hb⟩))).advance 2) := by
  rw [exec, execShr, aluBinary_of_lt _ _ ha hb, settle_ok]

theorem exec_mod {ra rb : Byte} (s : State) (ha : ra.toNat < 8) (hb : rb.toNat < 8) (h : s.reg ⟨rb.toNat, hb⟩ ≠ 0) :
    exec (.mod ra rb) s =
      .next ((s.setReg ⟨ra.toNat, ha⟩ (modBytes (s.reg ⟨ra.toNat, ha⟩) (s.reg ⟨rb.toNat, hb⟩))).advance 2) := by
  simp only [exec, execMod, registerOperand_of_lt ha, registerOperand_of_lt hb, aluBinary_of_lt _ _ ha hb, ok_bind_eq,
    if_neg h, settle_ok]

theorem exec_mod_zero {ra rb : Byte} (s : State) (ha : ra.toNat < 8) (hb : rb.toNat < 8) (h : s.reg ⟨rb.toNat, hb⟩ = 0) :
    exec (.mod ra rb) s = .next (s.setRun (.error .divideByZero s.pc)) := by
  simp only [exec, execMod, registerOperand_of_lt ha, registerOperand_of_lt hb, ok_bind_eq, if_pos h, settle_error,
    throw_eq_error, error_bind_eq]

theorem exec_cmp {ra rb : Byte} (s : State) (ha : ra.toNat < 8) (hb : rb.toNat < 8) :
    exec (.cmp ra rb) s =
      .next ((s.setFl (compareFlags (s.reg ⟨ra.toNat, ha⟩) (s.reg ⟨rb.toNat, hb⟩))).advance 2) := by
  simp only [exec, execCmp, registerOperand_of_lt ha, registerOperand_of_lt hb, ok_bind_eq, settle_ok, pure_eq_ok]

theorem exec_not {ra : Byte} (s : State) (ha : ra.toNat < 8) :
    exec (.not ra) s = .next ((s.setReg ⟨ra.toNat, ha⟩ (notByte (s.reg ⟨ra.toNat, ha⟩))).advance 1) := by
  rw [exec, execNot, aluUnary_of_lt _ _ ha, settle_ok]

/-! ### Load and output -/

theorem exec_ldi {ra : Byte} (imm : Byte) (s : State) (ha : ra.toNat < 8) :
    exec (.ldi ra imm) s = .next ((s.setReg ⟨ra.toNat, ha⟩ imm).advance 2) := by
  simp only [exec, execLdi, registerOperand_of_lt ha, ok_bind_eq, settle_ok, pure_eq_ok, immediateOperand]

theorem exec_prn {ra : Byte} (s : State) (ha : ra.toNat < 8) :
    exec (.prn ra) s = .next ((s.emit (.dec (s.reg ⟨ra.toNat, ha⟩))).advance 1) := by
  rw [exec, execPrn, emitRegister_of_lt _ _ ha, settle_ok]

theorem exec_pra {ra : Byte} (s : State) (ha : ra.toNat < 8) :
    exec (.pra ra) s = .next ((s.emit (.chr (s.reg ⟨ra.toNat, ha⟩))).advance 1) := by
  rw [exec, execPra, emitRegister_of_lt _ _ ha, settle_ok]

/-! ### Stack -/

/-- The state after a push of `v` (43_stack.md R171). -/
abbrev pushed (s : State) (v : Byte) : State :=
  (s.setReg 7 (s.reg 7 - 1)).setMem (s.mem.set (s.reg 7 - 1).toNat v)

theorem exec_push {ra : Byte} (s : State) (ha : ra.toNat < 8) (h : s.reg 7 ≠ 0) :
    exec (.push ra) s = .next ((pushed s ((s.setReg 7 (s.reg 7 - 1)).reg ⟨ra.toNat, ha⟩)).advance 1) := by
  simp only [exec, execPush, registerOperand_of_lt ha, ok_bind_eq, pushByte_of_sp_ne_zero _ h, settle_ok, pure_eq_ok]

theorem exec_push_zero {ra : Byte} (s : State) (ha : ra.toNat < 8) (h : s.reg 7 = 0) :
    exec (.push ra) s = .next (s.setRun (.undefined .stackUnderflow s.pc)) := by
  simp only [exec, execPush, registerOperand_of_lt ha, ok_bind_eq, pushByte_of_sp_zero _ h, error_bind_eq, settle_undefined]

theorem exec_pop {ra : Byte} (s : State) (ha : ra.toNat < 8) :
    exec (.pop ra) s =
      .next (((s.setReg ⟨ra.toNat, ha⟩ (s.mem.get (s.reg 7).toNat)).setReg 7
        ((s.setReg ⟨ra.toNat, ha⟩ (s.mem.get (s.reg 7).toNat)).reg 7 + 1)).advance 1) := by
  simp only [exec, execPop, registerOperand_of_lt ha, ok_bind_eq, popByte_eq, settle_ok, pure_eq_ok]

/-! ### Control transfer -/

theorem exec_call {ra : Byte} (s : State) (ha : ra.toNat < 8) (h : s.reg 7 ≠ 0) :
    exec (.call ra) s =
      .next ((pushed s (returnAddress s.pc)).jumpTo ((pushed s (returnAddress s.pc)).reg ⟨ra.toNat, ha⟩)) := by
  simp only [exec, execCall, registerOperand_of_lt ha, ok_bind_eq, pushByte_of_sp_ne_zero _ h, settle_ok, pure_eq_ok]

theorem exec_call_zero {ra : Byte} (s : State) (ha : ra.toNat < 8) (h : s.reg 7 = 0) :
    exec (.call ra) s = .next (s.setRun (.undefined .stackUnderflow s.pc)) := by
  simp only [exec, execCall, registerOperand_of_lt ha, ok_bind_eq, pushByte_of_sp_zero _ h, error_bind_eq, settle_undefined]

theorem exec_ret (s : State) :
    exec .ret s = .next ((s.jumpTo (s.mem.get (s.reg 7).toNat)).setReg 7 (s.reg 7 + 1)) := by
  simp only [exec, execRet, popByte_eq, settle_ok, State.jumpTo_eq, State.setPc_reg]

theorem exec_jmp {ra : Byte} (s : State) (ha : ra.toNat < 8) :
    exec (.jmp ra) s = .next (s.jumpTo (s.reg ⟨ra.toNat, ha⟩)) := by
  simp only [exec, execJmp, registerOperand_of_lt ha, ok_bind_eq, settle_ok, pure_eq_ok]

theorem exec_jeq {ra : Byte} (s : State) (ha : ra.toNat < 8) :
    exec (.jeq ra) s =
      .next (if s.equalFlag = true then s.jumpTo (s.reg ⟨ra.toNat, ha⟩) else s.advance 1) := by
  rw [exec, execJeq, jumpWhenEqualFlagIs_of_lt _ _ ha, settle_ok]

theorem exec_jne {ra : Byte} (s : State) (ha : ra.toNat < 8) :
    exec (.jne ra) s =
      .next (if s.equalFlag = false then s.jumpTo (s.reg ⟨ra.toNat, ha⟩) else s.advance 1) := by
  rw [exec, execJne, jumpWhenEqualFlagIs_of_lt _ _ ha, settle_ok]

theorem compareFlags_cases (a b : Byte) :
    compareFlags a b = 0x01 ∨ compareFlags a b = 0x02 ∨ compareFlags a b = 0x04 := by
  unfold compareFlags
  split
  · exact .inl rfl
  · split
    · exact .inr (.inl rfl)
    · exact .inr (.inr rfl)

/-! ### Everything an instruction whose register operands are in range can be -/

/-- How a well-formed instruction changes the state, by what it writes. -/
inductive Effect (i : Instr) (s : State) : State → Prop where
  /-- HLT -/
  | halts (hi : i = .hlt) : Effect i s (s.setRun .halted)
  /-- MOD with a divisor of 0 -/
  | dividesByZero (ra rb : Byte) (ha : ra.toNat < 8) (hb : rb.toNat < 8) (hi : i = .mod ra rb)
      (h : s.reg ⟨rb.toNat, hb⟩ = 0) : Effect i s (s.setRun (.error .divideByZero s.pc))
  /-- PUSH or CALL with SP = 0 -/
  | underflows (ra : Byte) (ha : ra.toNat < 8) (hi : i = .push ra ∨ i = .call ra) (h : s.reg 7 = 0) :
      Effect i s (s.setRun (.undefined .stackUnderflow s.pc))
  /-- the binary ALU operations with a result, and LDI -/
  | writesRegister3 (ra rb : Byte) (ha : ra.toNat < 8) (v : Byte)
      (hi : i ∈ [.add ra rb, .sub ra rb, .mul ra rb, .mod ra rb, .and ra rb, .or ra rb, .xor ra rb, .shl ra rb,
        .shr ra rb, .ldi ra rb]) : Effect i s ((s.setReg ⟨ra.toNat, ha⟩ v).advance 2)
  /-- NOT -/
  | complements (ra : Byte) (ha : ra.toNat < 8) (v : Byte) (hi : i = .not ra) :
      Effect i s ((s.setReg ⟨ra.toNat, ha⟩ v).advance 1)
  /-- CMP -/
  | compares (ra rb v : Byte) (hi : i = .cmp ra rb) (hv : v = 0x01 ∨ v = 0x02 ∨ v = 0x04) :
      Effect i s ((s.setFl v).advance 2)
  /-- PRN -/
  | printsNumber (ra : Byte) (ha : ra.toNat < 8) (hi : i = .prn ra) :
      Effect i s ((s.emit (.dec (s.reg ⟨ra.toNat, ha⟩))).advance 1)
  /-- PRA -/
  | printsCharacter (ra : Byte) (ha : ra.toNat < 8) (hi : i = .pra ra) :
      Effect i s ((s.emit (.chr (s.reg ⟨ra.toNat, ha⟩))).advance 1)
  /-- PUSH -/
  | pushes (ra v : Byte) (hi : i = .push ra) (h : s.reg 7 ≠ 0) : Effect i s ((pushed s v).advance 1)
  /-- CALL -/
  | calls (ra v w : Byte) (hi : i = .call ra) (h : s.reg 7 ≠ 0) : Effect i s ((pushed s v).jumpTo w)
  /-- POP -/
  | pops (ra v w : Byte) (ha : ra.toNat < 8) (hi : i = .pop ra) :
      Effect i s (((s.setReg ⟨ra.toNat, ha⟩ v).setReg 7 w).advance 1)
  /-- RET -/
  | returns (v w : Byte) (hi : i = .ret) : Effect i s ((s.jumpTo v).setReg 7 w)
  /-- JMP, and JEQ or JNE taken -/
  | jumps (ra v : Byte) (hi : i = .jmp ra ∨ i = .jeq ra ∨ i = .jne ra) : Effect i s (s.jumpTo v)
  /-- JEQ or JNE not taken -/
  | fallsThrough (ra : Byte) (hi : i = .jeq ra ∨ i = .jne ra) : Effect i s (s.advance 1)

/-- Everything `exec` can answer for a well-formed instruction. -/
theorem exec_effect {i : Instr} {s t : State} (hw : i.WellFormed) (h : exec i s = .next t) : Effect i s t := by
  cases i <;> simp only [Instr.WellFormed, Instr.registerOperands, List.mem_cons, List.not_mem_nil, or_false,
    forall_eq_or_imp, forall_eq, nreg_eq] at hw
  case hlt => cases h; exact .halts rfl
  case ret => rw [exec_ret] at h; cases h; exact .returns _ _ rfl
  case push ra =>
    by_cases h0 : s.reg 7 = 0
    · rw [exec_push_zero s hw h0] at h; cases h; exact .underflows ra hw (.inl rfl) h0
    · rw [exec_push s hw h0] at h; cases h; exact .pushes ra _ rfl h0
  case pop ra => rw [exec_pop s hw] at h; cases h; exact .pops ra _ _ hw rfl
  case prn ra => rw [exec_prn s hw] at h; cases h; exact .printsNumber ra hw rfl
  case pra ra => rw [exec_pra s hw] at h; cases h; exact .printsCharacter ra hw rfl
  case call ra =>
    by_cases h0 : s.reg 7 = 0
    · rw [exec_call_zero s hw h0] at h; cases h; exact .underflows ra hw (.inr rfl) h0
    · rw [exec_call s hw h0] at h; cases h; exact .calls ra _ _ rfl h0
  case jmp ra => rw [exec_jmp s hw] at h; cases h; exact .jumps ra _ (.inl rfl)
  case jeq ra =>
    rw [exec_jeq s hw] at h; cases h
    split
    · exact .jumps ra _ (.inr (.inl rfl))
    · exact .fallsThrough ra (.inl rfl)
  case jne ra =>
    rw [exec_jne s hw] at h; cases h
    split
    · exact .jumps ra _ (.inr (.inr rfl))
    · exact .fallsThrough ra (.inr rfl)
  case not ra => rw [exec_not s hw] at h; cases h; exact .complements ra hw _ rfl
  case ldi ra imm => rw [exec_ldi imm s hw] at h; cases h; exact .writesRegister3 ra imm hw _ (by simp)
  case cmp ra rb => rw [exec_cmp s hw.1 hw.2] at h; cases h; exact .compares ra rb _ rfl (compareFlags_cases _ _)
  case mod ra rb =>
    by_cases h0 : s.reg ⟨rb.toNat, hw.2⟩ = 0
    · rw [exec_mod_zero s hw.1 hw.2 h0] at h; cases h; exact .dividesByZero ra rb hw.1 hw.2 rfl h0
    · rw [exec_mod s hw.1 hw.2 h0] at h; cases h; exact .writesRegister3 ra rb hw.1 _ (by simp)
  case add ra rb => rw [exec_add s hw.1 hw.2] at h; cases h; exact .writesRegister3 ra rb hw.1 _ (by simp)
  case sub ra rb => rw [exec_sub s hw.1 hw.2] at h; cases h; exact .writesRegister3 ra rb hw.1 _ (by simp)
  case mul ra rb => rw [exec_mul s hw.1 hw.2] at h; cases h; exact .writesRegister3 ra rb hw.1 _ (by simp)
  case and ra rb => rw [exec_and s hw.1 hw.2] at h; cases h; exact .writesRegister3 ra rb hw.1 _ (by simp)
  case or ra rb => rw [exec_or s hw.1 hw.2] at h; cases h; exact .writesRegister3 ra rb hw.1 _ (by simp)
  case xor ra rb => rw [exec_xor s hw.1 hw.2] at h; cases h; exact .writesRegister3 ra rb hw.1 _ (by simp)
  case shl ra rb => rw [exec_shl s hw.1 hw.2] at h; cases h; exact .writesRegister3 ra rb hw.1 _ (by simp)
  case shr ra rb => rw [exec_shr s hw.1 hw.2] at h; cases h; exact .writesRegister3 ra rb hw.1 _ (by simp)

end Sys2Proof.Machine
end

