-- ==== Sys2Proof/Laws/Fetch.lean ====
section
/-! SUPPORT. What fetching an instruction does, and the cases of a step. -/

namespace Sys2Proof.Machine

/-- Reading bytes that all exist gives them. -/
theorem readBytes_of_le (m : Memory) (a n : Nat) (h : a + n ≤ 256) :
    readBytes m a n = .ok ((List.range n).map (fun k => m.get (a + k))) := by
  induction n generalizing a with
  | zero => rfl
  | succ n ih =>
    have ha : a < 256 := by omega
    rw [readBytes, memRead_of_lt ha, ih (a + 1) (by omega), List.range_succ_eq_map]
    simp [Nat.add_assoc, Nat.add_comm 1, Function.comp_def]

/-- Reading beyond address 255 raises OutOfRange. -/
theorem readBytes_of_gt (m : Memory) (a n : Nat) (hn : 0 < n) (h : 256 < a + n) :
    readBytes m a n = .error .outOfRange := by
  induction n generalizing a with
  | zero => omega
  | succ n ih =>
    rw [readBytes]
    by_cases ha : a < 256
    · rw [memRead_of_lt ha, ih (a + 1) (by omega) (by omega)]; rfl
    · rw [memRead_of_ge (Nat.le_of_not_lt ha)]; rfl

/-- What fetched bytes are: the opcode byte, and as many operand bytes as it says, all inside memory. -/
theorem fetchBytes_eq_ok {pf : Bool} {m : Memory} {p : Nat} {bs : List Byte} (h : fetchBytes pf m p = .ok bs) :
    p < 256 ∧ ((m.get p = haltCode ∧ bs = [haltCode]) ∨
      (p + (opcodeFields (m.get p)).operandCount < 256 ∧
        bs = m.get p :: (List.range (opcodeFields (m.get p)).operandCount).map (fun k => m.get (p + 1 + k)))) := by
  by_cases hp : p < 256
  · refine ⟨hp, ?_⟩
    simp only [fetchBytes, memRead_of_lt hp, ok_bind_eq] at h
    by_cases hop : m.get p = haltCode
    · simp only [hop, if_true, pure_eq_ok, Except.ok.injEq] at h
      exact .inl ⟨hop, h.symm⟩
    · right
      have hlt : (opcodeFields (m.get p)).operandCount < 4 := ((m.get p).extractLsb' 6 2).isLt
      generalize (opcodeFields (m.get p)).operandCount = n at h hlt ⊢
      simp only [hop, if_false] at h
      by_cases h3 : n = 3
      · simp [h3] at h
      · simp only [h3, if_false] at h
        have hk : n ≤ (if pf = true then 2 else n) := by split <;> omega
        generalize (if pf = true then 2 else n) = k at h hk
        by_cases hle : p + 1 + k ≤ 256
        · rw [readBytes_of_le _ _ _ hle] at h
          simp only [ok_bind_eq, pure_eq_ok, Except.ok.injEq] at h
          refine ⟨by omega, ?_⟩
          rw [← h, ← List.map_take, List.take_range, Nat.min_eq_left hk]
        · rw [readBytes_of_gt _ _ _ (by omega) (by omega)] at h
          cases h
  · simp [fetchBytes, memRead_of_ge (Nat.le_of_not_lt hp)] at h

/-- Only the operand bytes that a format has matter to the instruction. -/
theorem assemble_congr (m : Mnemonic) {a a' b b' : Byte} (h1 : 1 ≤ (opcodeFields (opcode m)).operandCount → a = a')
    (h2 : 2 ≤ (opcodeFields (opcode m)).operandCount → b = b') : Instr.assemble a b m = Instr.assemble a' b' m := by
  cases m <;> first
    | rfl
    | (rw [h1 (by decide), h2 (by decide)])
    | (simp only [Instr.assemble]; rw [h1 (by decide)])

/-- A fetched instruction lies whole inside memory: its opcode byte stands at `p`, its operand bytes behind it. -/
theorem fetchInstr_eq_ok {pf : Bool} {m : Memory} {p : Nat} {i : Instr} (h : fetchInstr pf m p = .ok i) :
    p + (encode i).length ≤ 256 ∧ m.get p = opcode i.mnemonic ∧
      i = Instr.assemble (m.get (p + 1)) (m.get (p + 2)) i.mnemonic := by
  unfold fetchInstr at h
  split at h
  · cases h
  · rename_i bs hbs
    split at h
    · rename_i j rest hdec
      cases h
      obtain ⟨op, tail, mn, rfl, rfl, -, hi, -⟩ := decode_eq_ok hdec
      have hmn : i.mnemonic = mn := by rw [hi, assemble_mnemonic]
      have hlen : (encode i).length = 1 + (opcodeFields (opcode mn)).operandCount := by
        rw [encode, List.length_cons, operandBytes_length, hmn, Nat.add_comm]
      obtain ⟨hp, ⟨hop, hb⟩ | ⟨hn, hb⟩⟩ := fetchBytes_eq_ok hbs
      · obtain ⟨h1, h2⟩ := List.cons.inj hb
        have : mn = .hlt := (opcode_eq_haltCode_iff mn).mp h1
        subst this
        rw [hlen, hmn, hop]
        have h0 : (opcodeFields (opcode .hlt)).operandCount = 0 := by decide
        exact ⟨by omega, rfl, hi⟩
      · obtain ⟨h1, h2⟩ := List.cons.inj hb
        rw [hmn, hlen, h1]
        refine ⟨by omega, rfl, hi.trans (assemble_congr mn ?_ ?_)⟩
        · intro hge
          rw [h2, ← h1]
          simp [List.getD, List.getElem?_range hge]
        · intro hge
          rw [h2, ← h1]
          simp [List.getD, List.getElem?_range hge]
    · cases h

/-- Conversely, an instruction whose bytes lie whole inside memory at `p` is fetched there. -/
theorem fetchInstr_of_layout {m : Memory} {p : Nat} {i : Instr} (hl : p + (encode i).length ≤ 256)
    (hop : m.get p = opcode i.mnemonic) (hi : i = Instr.assemble (m.get (p + 1)) (m.get (p + 2)) i.mnemonic) :
    fetchInstr false m p = .ok i := by
  have hlen : (encode i).length = 1 + (opcodeFields (opcode i.mnemonic)).operandCount := by
    rw [encode, List.length_cons, operandBytes_length, Nat.add_comm]
  generalize hm : i.mnemonic = mn at hop hi hlen
  have hfb : fetchBytes false m p = .ok (opcode mn ::
      (List.range (opcodeFields (opcode mn)).operandCount).map (fun k => m.get (p + 1 + k))) := by
    rw [fetchBytes, memRead_of_lt (by omega), ok_bind_eq, hop]
    by_cases hh : opcode mn = haltCode
    · have h0 : (opcodeFields (opcode .hlt)).operandCount = 0 := by decide
      have := (opcode_eq_haltCode_iff mn).mp hh
      subst this
      rw [if_pos hh, h0]; rfl
    · rw [if_neg hh, if_neg (opcode_operandCount_ne_three mn), if_neg (by simp), readBytes_of_le _ _ _ (by omega)]
      simp
  have hd := decode_opcode mn ((List.range (opcodeFields (opcode mn)).operandCount).map (fun k => m.get (p + 1 + k)))
    (by simp)
  simp only [fetchInstr, hfb, hd, Except.ok.injEq]
  rw [hi]
  refine assemble_congr mn (fun h => ?_) (fun h => ?_) <;> simp [List.getD, List.getElem?_range h]

/-- Reading bytes raises nothing but OutOfRange. -/
theorem readBytes_error {m : Memory} {a n : Nat} {k : ErrorKind} (h : readBytes m a n = .error k) : k = .outOfRange := by
  by_cases hle : a + n ≤ 256
  · rw [readBytes_of_le _ _ _ hle] at h; cases h
  · rcases Nat.eq_zero_or_pos n with rfl | hn
    · cases h
    · rw [readBytes_of_gt _ _ _ hn (by omega)] at h; cases h; rfl

/-- Fetching and decoding raise nothing but OutOfRange and UnsupportedOperation. -/
theorem fetchInstr_error {pf : Bool} {m : Memory} {p : Nat} {k : ErrorKind} (h : fetchInstr pf m p = .error k) :
    k = .outOfRange ∨ k = .unsupportedOperation := by
  unfold fetchInstr at h
  split at h
  · rename_i k' hk
    cases h
    by_cases hp : p < 256
    · rw [fetchBytes, memRead_of_lt hp, ok_bind_eq] at hk
      split at hk
      · cases hk
      · split at hk
        · cases hk; exact .inr rfl
        · generalize (if pf = true then 2 else (opcodeFields (m.get p)).operandCount) = n at hk
          rcases hr : readBytes m (p + 1) n with k' | bs
          · rw [hr] at hk; cases hk; exact .inl (readBytes_error hr)
          · rw [hr] at hk; cases hk
    · rw [fetchBytes, memRead_of_ge (Nat.le_of_not_lt hp)] at hk; cases hk; exact .inl rfl
  · split at h
    · cases h
    · rename_i r _
      cases h
      cases r <;> simp [rejectError]

/-- Everything a step can be. -/
theorem step_cases (s : State) :
    (s.run = .running ∧ s.cancelAsserted = true ∧ step s = .next (s.setRun .cancelled)) ∨
    (s.run = .running ∧ s.cancelAsserted = false ∧
      ∃ k, fetchInstr Config.prefetchOperands s.mem s.pc.toNat = .error k ∧
        step s = .next (s.nextSample.setRun (.error k s.pc))) ∨
    (s.run = .running ∧ s.cancelAsserted = false ∧
      ∃ i, fetchInstr Config.prefetchOperands s.mem s.pc.toNat = .ok i ∧ step s = exec i s.nextSample) ∨
    ((s.run = .halted ∨ s.run = .cancelled ∨ ∃ k p, s.run = .error k p) ∧ step s = .next s) ∨
    (∃ u p, s.run = .undefined u p ∧ step s = .fault (.undefinedState u p)) := by
  unfold step cycle
  split
  · rename_i hr
    by_cases hc : s.cancelAsserted = true
    · exact .inl ⟨hr, hc, by simp [hc]⟩
    · have hc : s.cancelAsserted = false := by simpa using hc
      simp only [hc, Bool.false_eq_true, if_false, runInstruction, State.nextSample_mem, State.nextSample_pc]
      rcases hf : fetchInstr Config.prefetchOperands s.mem s.pc.toNat with k | i
      · exact .inr (.inl ⟨hr, trivial, k, rfl, rfl⟩)
      · exact .inr (.inr (.inl ⟨hr, trivial, i, rfl, rfl⟩))
  · rename_i hr; exact .inr (.inr (.inr (.inl ⟨.inl hr, rfl⟩)))
  · rename_i k p hr; exact .inr (.inr (.inr (.inl ⟨.inr (.inr ⟨k, p, hr⟩), rfl⟩)))
  · rename_i hr; exact .inr (.inr (.inr (.inl ⟨.inr (.inl hr), rfl⟩)))
  · rename_i u p hr; exact .inr (.inr (.inr (.inr ⟨u, p, hr, rfl⟩)))

end Sys2Proof.Machine
end

