-- ==== Sys2Proof/Laws/PerInstr.lean ====
section
/-! SUPPORT. A statement about every instruction as syntax, one lemma per constructor: the fields of its opcode byte agree with its format, its class and its role (30_encoding.md R81, R82, R84). -/

namespace Sys2Proof.Laws.OpcodeFields

/-- The mnemonics of the ALU class (spec/41_alu.md). -/
def aluClass : List Mnemonic := [.add, .sub, .mul, .mod, .cmp, .and, .or, .xor, .not, .shl, .shr]

/-- The mnemonics whose handler sets the PC (40_execution_cycle.md R117). -/
def pcSetters : List Mnemonic := [.call, .ret, .jmp, .jeq, .jne]

/-- The opcode byte's N field is the number of operand bytes, its A field says that the instruction is of the ALU class,
and its P field that its handler sets the PC. -/
def Statement (i : Instr) : Prop :=
  (opcodeFields (opcode i.mnemonic)).operandCount = i.operandBytes.length ∧
  (opcodeFields (opcode i.mnemonic)).isAlu = aluClass.contains i.mnemonic ∧
  (opcodeFields (opcode i.mnemonic)).setsPc = pcSetters.contains i.mnemonic

theorem hlt : Statement (.hlt) :=
  ⟨(operandBytes_length _).symm, by simp only [Instr.mnemonic]; decide, by simp only [Instr.mnemonic]; decide⟩

theorem ret : Statement (.ret) :=
  ⟨(operandBytes_length _).symm, by simp only [Instr.mnemonic]; decide, by simp only [Instr.mnemonic]; decide⟩

theorem push (ra : Byte) : Statement (.push ra) :=
  ⟨(operandBytes_length _).symm, by simp only [Instr.mnemonic]; decide, by simp only [Instr.mnemonic]; decide⟩

theorem pop (ra : Byte) : Statement (.pop ra) :=
  ⟨(operandBytes_length _).symm, by simp only [Instr.mnemonic]; decide, by simp only [Instr.mnemonic]; decide⟩

theorem prn (ra : Byte) : Statement (.prn ra) :=
  ⟨(operandBytes_length _).symm, by simp only [Instr.mnemonic]; decide, by simp only [Instr.mnemonic]; decide⟩

theorem pra (ra : Byte) : Statement (.pra ra) :=
  ⟨(operandBytes_length _).symm, by simp only [Instr.mnemonic]; decide, by simp only [Instr.mnemonic]; decide⟩

theorem call (ra : Byte) : Statement (.call ra) :=
  ⟨(operandBytes_length _).symm, by simp only [Instr.mnemonic]; decide, by simp only [Instr.mnemonic]; decide⟩

theorem jmp (ra : Byte) : Statement (.jmp ra) :=
  ⟨(operandBytes_length _).symm, by simp only [Instr.mnemonic]; decide, by simp only [Instr.mnemonic]; decide⟩

theorem jeq (ra : Byte) : Statement (.jeq ra) :=
  ⟨(operandBytes_length _).symm, by simp only [Instr.mnemonic]; decide, by simp only [Instr.mnemonic]; decide⟩

theorem jne (ra : Byte) : Statement (.jne ra) :=
  ⟨(operandBytes_length _).symm, by simp only [Instr.mnemonic]; decide, by simp only [Instr.mnemonic]; decide⟩

theorem not (ra : Byte) : Statement (.not ra) :=
  ⟨(operandBytes_length _).symm, by simp only [Instr.mnemonic]; decide, by simp only [Instr.mnemonic]; decide⟩

theorem ldi (ra rb : Byte) : Statement (.ldi ra rb) :=
  ⟨(operandBytes_length _).symm, by simp only [Instr.mnemonic]; decide, by simp only [Instr.mnemonic]; decide⟩

theorem add (ra rb : Byte) : Statement (.add ra rb) :=
  ⟨(operandBytes_length _).symm, by simp only [Instr.mnemonic]; decide, by simp only [Instr.mnemonic]; decide⟩

theorem sub (ra rb : Byte) : Statement (.sub ra rb) :=
  ⟨(operandBytes_length _).symm, by simp only [Instr.mnemonic]; decide, by simp only [Instr.mnemonic]; decide⟩

theorem mul (ra rb : Byte) : Statement (.mul ra rb) :=
  ⟨(operandBytes_length _).symm, by simp only [Instr.mnemonic]; decide, by simp only [Instr.mnemonic]; decide⟩

theorem mod (ra rb : Byte) : Statement (.mod ra rb) :=
  ⟨(operandBytes_length _).symm, by simp only [Instr.mnemonic]; decide, by simp only [Instr.mnemonic]; decide⟩

theorem cmp (ra rb : Byte) : Statement (.cmp ra rb) :=
  ⟨(operandBytes_length _).symm, by simp only [Instr.mnemonic]; decide, by simp only [Instr.mnemonic]; decide⟩

theorem and (ra rb : Byte) : Statement (.and ra rb) :=
  ⟨(operandBytes_length _).symm, by simp only [Instr.mnemonic]; decide, by simp only [Instr.mnemonic]; decide⟩

theorem or (ra rb : Byte) : Statement (.or ra rb) :=
  ⟨(operandBytes_length _).symm, by simp only [Instr.mnemonic]; decide, by simp only [Instr.mnemonic]; decide⟩

theorem xor (ra rb : Byte) : Statement (.xor ra rb) :=
  ⟨(operandBytes_length _).symm, by simp only [Instr.mnemonic]; decide, by simp only [Instr.mnemonic]; decide⟩

theorem shl (ra rb : Byte) : Statement (.shl ra rb) :=
  ⟨(operandBytes_length _).symm, by simp only [Instr.mnemonic]; decide, by simp only [Instr.mnemonic]; decide⟩

theorem shr (ra rb : Byte) : Statement (.shr ra rb) :=
  ⟨(operandBytes_length _).symm, by simp only [Instr.mnemonic]; decide, by simp only [Instr.mnemonic]; decide⟩

end Sys2Proof.Laws.OpcodeFields
end

