-- ==== Sys2Proof/Tests/Slice0.lean ====
section
/-! SUPPORT. The model's own tests: words of the spec's encodings, vectors of spec/95_test_vectors.md, ill-formed terms, and a witness for the hypotheses of every obligation that has some. -/

namespace Sys2Proof.Tests

open Sys2Proof.Machine Sys2Proof.Safety

/-! ### Decoding: one word per constructor, its opcode written bit by bit as NN A P IIII (30_encoding.md R84) -/

theorem test_decode_hlt : decode [0b00000001, 0xEE] = .ok (.hlt, [0xEE]) := rfl

theorem test_decode_ret : decode [0b00010001, 0xEE] = .ok (.ret, [0xEE]) := rfl

theorem test_decode_push : decode [0b01000101, 0x05, 0xEE] = .ok (.push 0x05, [0xEE]) := rfl

theorem test_decode_pop : decode [0b01000110, 0x05, 0xEE] = .ok (.pop 0x05, [0xEE]) := rfl

theorem test_decode_prn : decode [0b01000111, 0x05, 0xEE] = .ok (.prn 0x05, [0xEE]) := rfl

theorem test_decode_pra : decode [0b01001000, 0x05, 0xEE] = .ok (.pra 0x05, [0xEE]) := rfl

theorem test_decode_call : decode [0b01010000, 0x05, 0xEE] = .ok (.call 0x05, [0xEE]) := rfl

theorem test_decode_jmp : decode [0b01010100, 0x05, 0xEE] = .ok (.jmp 0x05, [0xEE]) := rfl

theorem test_decode_jeq : decode [0b01010101, 0x05, 0xEE] = .ok (.jeq 0x05, [0xEE]) := rfl

theorem test_decode_jne : decode [0b01010110, 0x05, 0xEE] = .ok (.jne 0x05, [0xEE]) := rfl

theorem test_decode_not : decode [0b01101001, 0x05, 0xEE] = .ok (.not 0x05, [0xEE]) := rfl

theorem test_decode_ldi : decode [0b10000010, 0x05, 0x02, 0xEE] = .ok (.ldi 0x05 0x02, [0xEE]) := rfl

theorem test_decode_add : decode [0b10100000, 0x05, 0x02, 0xEE] = .ok (.add 0x05 0x02, [0xEE]) := rfl

theorem test_decode_sub : decode [0b10100001, 0x05, 0x02, 0xEE] = .ok (.sub 0x05 0x02, [0xEE]) := rfl

theorem test_decode_mul : decode [0b10100010, 0x05, 0x02, 0xEE] = .ok (.mul 0x05 0x02, [0xEE]) := rfl

theorem test_decode_mod : decode [0b10100100, 0x05, 0x02, 0xEE] = .ok (.mod 0x05 0x02, [0xEE]) := rfl

theorem test_decode_cmp : decode [0b10100111, 0x05, 0x02, 0xEE] = .ok (.cmp 0x05 0x02, [0xEE]) := rfl

theorem test_decode_and : decode [0b10101000, 0x05, 0x02, 0xEE] = .ok (.and 0x05 0x02, [0xEE]) := rfl

theorem test_decode_or : decode [0b10101010, 0x05, 0x02, 0xEE] = .ok (.or 0x05 0x02, [0xEE]) := rfl

theorem test_decode_xor : decode [0b10101011, 0x05, 0x02, 0xEE] = .ok (.xor 0x05 0x02, [0xEE]) := rfl

theorem test_decode_shl : decode [0b10101100, 0x05, 0x02, 0xEE] = .ok (.shl 0x05 0x02, [0xEE]) := rfl

theorem test_decode_shr : decode [0b10101101, 0x05, 0x02, 0xEE] = .ok (.shr 0x05 0x02, [0xEE]) := rfl

/-- Bit 0 of a table word is the lowest bit of the first byte: LDI R1, 9 is the bytes 82 01 09 (95_test_vectors.md P1). -/
theorem test_decode_table_word : decodeTableWord 24 0x090182 = some (.ldi 1 9) := by decide

/-- A table word shorter than the instruction has operand bytes of zeros. -/
theorem test_decode_table_word_short : decodeTableWord 8 0xA0 = some (.add 0 0) := by decide

/-! ### Rejection by name (30_encoding.md R87, 95_test_vectors.md X1 to X5) -/

theorem test_reject_group1 : decode [0xC0, 0, 0] = .error .operandCountThree ∧ decode [0xFF] = .error .operandCountThree :=
  ⟨rfl, rfl⟩

theorem test_reject_group2 : decode [0x00, 0, 0] = .error .generalByteUnknown ∧ decode [0x02, 0, 0] = .error .generalByteUnknown ∧
    decode [0x10, 0, 0] = .error .generalByteUnknown ∧ decode [0x12, 0, 0] = .error .generalByteUnknown ∧
    decode [0x52, 0, 0] = .error .generalByteUnknown ∧ decode [0x83, 0, 0] = .error .generalByteUnknown :=
  ⟨rfl, rfl, rfl, rfl, rfl, rfl⟩

theorem test_reject_group3 : decode [0xA3, 0, 0] = .error .aluIdentifierUnknown ∧
    decode [0xA5, 0, 0] = .error .aluIdentifierUnknown ∧ decode [0x65, 0, 0] = .error .aluIdentifierUnknown ∧
    decode [0x66, 0, 0] = .error .aluIdentifierUnknown :=
  ⟨rfl, rfl, rfl, rfl⟩

theorem test_reject_group4 : decode [0x20, 0, 0] = .error .aluByteNotCanonical ∧
    decode [0x60, 0, 0] = .error .aluByteNotCanonical ∧ decode [0xB0, 0, 0] = .error .aluByteNotCanonical ∧
    decode [0x29, 0, 0] = .error .aluByteNotCanonical :=
  ⟨rfl, rfl, rfl, rfl⟩

theorem test_reject_short : decode [] = .error .noOpcode ∧ decode [0xA0, 0] = .error .operandMissing := ⟨rfl, rfl⟩

/-! ### WellFormed refuses an ill-formed term for each check (10_state.md R23) -/

theorem test_illformed_opA : ¬ (Instr.ldi 8 5).WellFormed := by decide

theorem test_illformed_opA_of_one : ¬ (Instr.jeq 9).WellFormed := by decide

theorem test_illformed_opB : ¬ (Instr.add 0 8).WellFormed := by decide

theorem test_wellformed_immediate : (Instr.ldi 7 0xFF).WellFormed := by decide

/-! ### Notation (30_encoding.md R90) -/

theorem test_asm_rr : (Instr.add 0 1).asm = "ADD R0, R1" := by decide

theorem test_asm_ri : (Instr.ldi 0 8).asm = "LDI R0, 8" := by decide

/-! ### One step of the vectors of spec/95_test_vectors.md -/

/-- Construction with `bytes` at `p`, the PC there, and the listed registers set: the vectors' start states. -/
def start (p : Pc) (bytes : List Byte) (regs : List (Reg × Byte)) : State :=
  regs.foldl (fun s r => s.setReg r.1 r.2) ((State.reset.setPc p).setMem (storeBytes [] p.toNat bytes))

/-- The state a step answers; `s` itself where it answers none. -/
def after (s : State) : State :=
  match step s with
  | .next t => t
  | _ => s

/-- A1 -/
theorem test_add_wraps : (after (start 0 [0xA0, 0x00, 0x01] [(0, 200), (1, 100)])).reg 0 = 44 ∧
    (after (start 0 [0xA0, 0x00, 0x01] [(0, 200), (1, 100)])).pc = 3 := by decide

/-- A42 -/
theorem test_add_names_sp : (after (start 0 [0xA0, 0x07, 0x00] [(7, 244), (0, 1)])).reg 7 = 0xF5 ∧
    (after (start 0 [0xA0, 0x07, 0x00] [(7, 244), (0, 1)])).pc = 3 := by decide

/-- A4 -/
theorem test_sub_wraps : (after (start 0 [0xA1, 0x02, 0x03] [(2, 3), (3, 5)])).reg 2 = 254 ∧
    (after (start 0 [0xA1, 0x02, 0x03] [(2, 3), (3, 5)])).pc = 3 := by decide

/-- A7 -/
theorem test_sub_same_register : (after (start 0 [0xA1, 0x04, 0x04] [(4, 9)])).reg 4 = 0 ∧
    (after (start 0 [0xA1, 0x04, 0x04] [(4, 9)])).pc = 3 := by decide

/-- A10 -/
theorem test_mul_truncates : (after (start 0 [0xA2, 0x00, 0x01] [(0, 200), (1, 2)])).reg 0 = 144 ∧
    (after (start 0 [0xA2, 0x00, 0x01] [(0, 200), (1, 2)])).pc = 3 := by decide

/-- A12 -/
theorem test_mul_same_register : (after (start 0 [0xA2, 0x00, 0x00] [(0, 42)])).reg 0 = 228 ∧
    (after (start 0 [0xA2, 0x00, 0x00] [(0, 42)])).pc = 3 := by decide

/-- A14 -/
theorem test_mod_small_dividend : (after (start 0 [0xA4, 0x00, 0x01] [(0, 5), (1, 17)])).reg 0 = 5 ∧
    (after (start 0 [0xA4, 0x00, 0x01] [(0, 5), (1, 17)])).pc = 3 := by decide

/-- A18 -/
theorem test_mod_by_zero : after (start 0 [0xA4, 0x00, 0x01] [(0, 7)]) =
    (start 0 [0xA4, 0x00, 0x01] [(0, 7)]).setRun (.error .divideByZero 0) := by decide

/-- A21 -/
theorem test_and_bits : (after (start 0 [0xA8, 0x00, 0x01] [(0, 204), (1, 170)])).reg 0 = 0x88 ∧
    (after (start 0 [0xA8, 0x00, 0x01] [(0, 204), (1, 170)])).pc = 3 := by decide

/-- A22 -/
theorem test_or_bits : (after (start 0 [0xAA, 0x00, 0x01] [(0, 204), (1, 170)])).reg 0 = 0xEE ∧
    (after (start 0 [0xAA, 0x00, 0x01] [(0, 204), (1, 170)])).pc = 3 := by decide

/-- A23 -/
theorem test_xor_bits : (after (start 0 [0xAB, 0x00, 0x01] [(0, 204), (1, 170)])).reg 0 = 0x66 ∧
    (after (start 0 [0xAB, 0x00, 0x01] [(0, 204), (1, 170)])).pc = 3 := by decide

/-- A26 -/
theorem test_not_bits : (after (start 0 [0x69, 0x00] [(0, 90)])).reg 0 = 0xA5 ∧
    (after (start 0 [0x69, 0x00] [(0, 90)])).pc = 2 := by decide

/-- A28 -/
theorem test_shl_to_top : (after (start 0 [0xAC, 0x00, 0x01] [(0, 1), (1, 7)])).reg 0 = 0x80 ∧
    (after (start 0 [0xAC, 0x00, 0x01] [(0, 1), (1, 7)])).pc = 3 := by decide

/-- A30 -/
theorem test_shl_large_amount : (after (start 0 [0xAC, 0x00, 0x01] [(0, 255), (1, 255)])).reg 0 = 0 ∧
    (after (start 0 [0xAC, 0x00, 0x01] [(0, 255), (1, 255)])).pc = 3 := by decide

/-- A33 -/
theorem test_shr_logical : (after (start 0 [0xAD, 0x00, 0x01] [(0, 128), (1, 7)])).reg 0 = 1 ∧
    (after (start 0 [0xAD, 0x00, 0x01] [(0, 128), (1, 7)])).pc = 3 := by decide

/-- A35 -/
theorem test_shr_by_eight : (after (start 0 [0xAD, 0x00, 0x01] [(0, 128), (1, 8)])).reg 0 = 0 ∧
    (after (start 0 [0xAD, 0x00, 0x01] [(0, 128), (1, 8)])).pc = 3 := by decide

/-- A39 -/
theorem test_cmp_unsigned_greater : (after (start 0 [0xA7, 0x00, 0x01] [(0, 0x80), (1, 0x7F)])).fl = 0x02 := by decide

/-- A38, with FL = E before (A40) -/
theorem test_cmp_less_overwrites : (after ((start 0 [0xA7, 0x00, 0x01] [(0, 3), (1, 7)]).setFl 0x01)).fl = 0x04 := by decide

/-- L2 -/
theorem test_ldi_sp : (after (start 0 [0x82, 0x07, 0x80] [])).reg 7 = 0x80 ∧
    (after (start 0 [0x82, 0x07, 0x80] [])).pc = 3 := by decide

/-- L4 -/
theorem test_prn_unsigned : (after (start 0 [0x47, 0x00] [(0, 0xFF)])).out = [.dec 255] := by decide

/-- L6 -/
theorem test_pra_high_code : (after (start 0 [0x48, 0x00] [(0, 0xC8)])).out = [.chr 200] := by decide

/-- K3 -/
theorem test_push_sp : (after (start 0 [0x45, 0x07] [])).reg 7 = 0xF3 ∧ (after (start 0 [0x45, 0x07] [])).mem.get 0xF3 = 0xF3 := by decide

/-- K7 -/
theorem test_push_at_zero : after (start 0 [0x45, 0x00] [(7, 0)]) =
    (start 0 [0x45, 0x00] [(7, 0)]).setRun (.undefined .stackUnderflow 0) := by decide

/-- K5 -/
theorem test_pop_sp : (after ((start 0 [0x46, 0x07] [(7, 0xF3)]).setMem [(0, 0x46), (1, 0x07), (0xF3, 0x10)])).reg 7 = 0x11 := by decide

/-- K6 -/
theorem test_pop_at_top : (after ((start 0 [0x46, 0x00] [(7, 0xFF)]).setMem [(0, 0x46), (0xFF, 0x33)])).reg 0 = 0x33 ∧
    (after ((start 0 [0x46, 0x00] [(7, 0xFF)]).setMem [(0, 0x46), (0xFF, 0x33)])).reg 7 = 0 := by decide

/-- T1 -/
theorem test_call_pushes : (after (start 9 [0x50, 0x02] [(2, 15)])).pc = 15 ∧ (after (start 9 [0x50, 0x02] [(2, 15)])).mem.get 0xF3 = 11 := by decide

/-- T4 -/
theorem test_call_sp : (after (start 0 [0x50, 0x07] [])).pc = 0xF3 ∧ (after (start 0 [0x50, 0x07] [])).mem.get 0xF3 = 2 := by decide

/-- T2 -/
theorem test_ret_pops : (after ((start 0 [0x11] [(7, 0xF3)]).setMem [(0, 0x11), (0xF3, 11)])).pc = 11 ∧
    (after ((start 0 [0x11] [(7, 0xF3)]).setMem [(0, 0x11), (0xF3, 11)])).reg 7 = 0xF4 := by decide

/-- T8 -/
theorem test_jmp : (after (start 0 [0x54, 0x03] [(3, 12)])).pc = 12 := by decide

/-- T10 -/
theorem test_jeq_taken : (after ((start 20 [0x55, 0x03] [(3, 40)]).setFl 0x01)).pc = 40 := by decide

/-- T16 -/
theorem test_jeq_not_taken_at_top : (after (start 254 [0x55, 0x00] [])).pc = 256 := by decide

/-- T15 -/
theorem test_jne_taken_on_greater : (after ((start 20 [0x56, 0x03] [(3, 12)]).setFl 0x02)).pc = 12 := by decide

/-- T14 -/
theorem test_jne_not_taken : (after ((start 20 [0x56, 0x03] [(3, 12)]).setFl 0x01)).pc = 22 := by decide

/-- T19 -/
theorem test_hlt_at_top : after (start 255 [0x01] []) = (start 255 [0x01] []).setRun .halted := by decide

/-! ### The cycle (95_test_vectors.md X6 to X11, L7 to L9, T16, T17, B1 to B3) -/

/-- X6 -/
theorem test_fetch_before_lookup : (after (start 254 [0x83] [])).run = .error .outOfRange 254 := by decide

/-- X8 -/
theorem test_register_check_before_divisor : (after (start 0 [0xA4, 0x08, 0x00] [])).run = .error .outOfRange 0 := by decide

/-- X9 -/
theorem test_opB_is_checked : (after (start 0 [0xA0, 0x00, 0x08] [])).run = .error .outOfRange 0 := by decide

/-- T17 -/
theorem test_jeq_not_taken_checks_its_register : (after (start 0 [0x55, 0x09] [])).run = .error .outOfRange 0 := by decide

/-- X10 -/
theorem test_fetch_at_256 : (after (start 256 [] [])).run = .error .outOfRange 256 := by decide

/-- L9 -/
theorem test_operand_at_256 : (after (start 255 [0x47] [])).run = .error .outOfRange 255 := by decide

/-- X11 -/
theorem test_cancel_first : after { start 0 [0x01] [] with cancel := [true] } = { start 0 [0x01] [] with cancel := [true], run := .cancelled } := by decide

/-- B1 -/
theorem test_boot_empty : (after (boot [])).run = .error .unsupportedOperation 0 := by decide

/-- B3: a 257-byte image is refused before any byte is written -/
theorem test_boot_too_long : boot (List.replicate 257 0x01) = State.reset.setRun (.error .loadError 0) := by
  rw [boot, State.load, if_pos (by rw [List.length_replicate]; decide)]

/-- 60_exceptions.md R206: a model treats the UNDEFINED state as a fault -/
theorem test_undefined_faults : step (State.reset.setRun (.undefined .stackUnderflow 0)) = .fault (.undefinedState .stackUnderflow 0) :=
  rfl

/-- 60_exceptions.md R200 -/
theorem test_error_codes : [ErrorKind.outOfRange, .unsupportedOperation, .divideByZero, .loadError].map ErrorKind.code = [1, 2, 3, 4] :=
  rfl

/-- A placed word is the first instruction after reset. -/
theorem test_withFetchWord : (after (State.reset.withFetchWord 24 0x080082)).reg 0 = 8 := by decide

/-! ### Witnesses: for every obligation with hypotheses, concrete data that meets all of them, at the edges of their ranges -/

theorem witness_DecodedBytesAreTheEncoding : decode [0x47, 0x00, 0x09] = .ok (.prn 0, [0x09]) := rfl

/-- Both clauses, at the last address and at the first that does not exist (MemWriteChangesOnlyTheAddressedCell,
MemReadIsBoundsChecked). -/
theorem witness_memory_bounds : (255 ≤ 255) ∧ (256 ≤ 256) ∧ (254 : Nat) ≠ 255 := by decide

theorem witness_CanonicalMemoriesReadingAlikeAreEqual :
    Memory.wf [(3, 1)] ∧ Memory.wf (Memory.set [] 3 1) ∧ ∀ a, memRead [(3, 1)] a = memRead (Memory.set [] 3 1) a :=
  ⟨by decide, by decide, fun _ => rfl⟩

theorem witness_StepRunsTheDecodedInstruction :
    Ready (start 253 [0xA0, 0x00, 0x01] []) ∧ BytesAt (start 253 [0xA0, 0x00, 0x01] []).mem 253 [0xA0, 0x00, 0x01] ∧
      decode [0xA0, 0x00, 0x01] = .ok (.add 0 1, []) :=
  ⟨by decide, fun k => by match k with | ⟨0, _⟩ => rfl | ⟨1, _⟩ => rfl | ⟨2, _⟩ => rfl, rfl⟩

theorem witness_PlacedWordIsRunByTheNextStep :
    (State.reset.setPc 253).pc.toNat ≤ 253 ∧ decodeTableWord 8 0xA0 = some (.add 0 0) := by decide

theorem witness_AssertedCancelEndsTheRun :
    ({ State.reset with cancel := [true] } : State).run = .running ∧
      State.cancelAsserted { State.reset with cancel := [true] } = true := by decide

theorem witness_OpcodeFetchReadsAtThePc :
    fetchBytes false [(255, 0x01)] 255 = .ok [0x01] ∧ Ready (State.reset.setPc 256) ∧ 256 ≤ (State.reset.setPc 256).pc.toNat :=
  ⟨rfl, by decide, by decide⟩

theorem witness_HaltCodeEndsTheRun :
    Ready (start 255 [0x01] []) ∧ memRead (start 255 [0x01] []).mem (start 255 [0x01] []).pc.toNat = .ok 0x01 :=
  ⟨by decide, rfl⟩

theorem witness_HaltedIsEnteredOnlyByTheHaltCode :
    (start 255 [0x01] []).run = .running ∧ step (start 255 [0x01] []) = .next ((start 255 [0x01] []).setRun .halted) ∧
      ((start 255 [0x01] []).setRun .halted).run = .halted :=
  ⟨by decide, rfl, rfl⟩

theorem witness_OperandFetchOutsideMemoryRaisesOutOfRange :
    Ready (start 254 [0x83] []) ∧ memRead (start 254 [0x83] []).mem 254 = .ok 0x83 ∧ (0x83 : Byte) ≠ 0x01 ∧
      (0x83 : Byte).toNat / 64 ≠ 3 ∧ 256 ≤ (start 254 [0x83] []).pc.toNat + (0x83 : Byte).toNat / 64 :=
  ⟨by decide, rfl, by decide, by decide, by decide⟩

/-- Both ways to meet the last hypothesis: operand count 3, and operand bytes that end at address 255. -/
theorem witness_UnsupportedOpcodeRaisesUnsupportedOperation :
    (Ready (start 255 [0xC0] []) ∧ memRead (start 255 [0xC0] []).mem 255 = .ok 0xC0 ∧ (0xC0 : Byte) ∉ legalOpcodes ∧
      (0xC0 : Byte).toNat / 64 = 3) ∧
    (Ready (start 253 [0x83] []) ∧ memRead (start 253 [0x83] []).mem 253 = .ok 0x83 ∧ (0x83 : Byte) ∉ legalOpcodes ∧
      (start 253 [0x83] []).pc.toNat + (0x83 : Byte).toNat / 64 < 256) :=
  ⟨⟨by decide, rfl, by decide, by decide⟩, ⟨by decide, rfl, by decide, by decide⟩⟩

theorem witness_RegisterOperandOutOfRangeRaisesOutOfRange :
    ¬ (Instr.not 8).WellFormed ∧ ¬ (Instr.shr 7 255).WellFormed := by decide

/-- Also for StepKeepsTheInvariant and UnreadFlagBitsInfluenceNothing: a state, a step, and the state it answers. -/
theorem witness_RaisingStepsArePrecise :
    Inv State.reset ∧ State.reset.run = .running ∧
      step State.reset = .next (State.reset.setRun (.error .unsupportedOperation 0)) ∧
      (State.reset.setRun (.error .unsupportedOperation 0)).run = .error .unsupportedOperation 0 :=
  ⟨by decide, rfl, rfl, rfl⟩

/-- A step that completes, from a state of the invariant (StepKeepsTheInvariant, OutputIsOnlyAppendedTo). -/
theorem witness_StepKeepsTheInvariant :
    Inv (start 254 [0x47, 0x07] []) ∧
      step (start 254 [0x47, 0x07] []) = .next (((start 254 [0x47, 0x07] []).emit (.dec 0xF4)).setPc 256) :=
  ⟨by decide, rfl⟩

theorem witness_TerminalStatesPersist :
    (State.reset.setRun .halted).run = .halted ∧ (State.reset.setRun .cancelled).run = .cancelled ∧
      (State.reset.setRun (.error .loadError 0)).run = .error .loadError 0 ∧
      (State.reset.setRun (.undefined .stackUnderflow 0)).run = .undefined .stackUnderflow 0 := ⟨rfl, rfl, rfl, rfl⟩

theorem witness_DivideByZeroIsRaisedOnlyByMod :
    Ready (start 253 [0xA4, 0x00, 0x06] []) ∧
      BytesAt (start 253 [0xA4, 0x00, 0x06] []).mem 253 (encode (.mod 0 6)) ∧ (start 253 [0xA4, 0x00, 0x06] []).reg 6 = 0 :=
  ⟨by decide, fun k => by match k with | ⟨0, _⟩ => rfl | ⟨1, _⟩ => rfl | ⟨2, _⟩ => rfl, by decide⟩

/-- The PUSH clause and the CALL clause, at the last address either can stand at. -/
theorem witness_UndefinedIsEnteredOnlyByPushOrCallAtZero :
    (Ready (start 254 [0x45, 0x07] [(7, 0)]) ∧ (start 254 [0x45, 0x07] [(7, 0)]).reg 7 = 0 ∧
      BytesAt (start 254 [0x45, 0x07] [(7, 0)]).mem 254 (encode (.push 7))) ∧
    (Ready (start 254 [0x50, 0x07] [(7, 0)]) ∧ (start 254 [0x50, 0x07] [(7, 0)]).reg 7 = 0 ∧
      BytesAt (start 254 [0x50, 0x07] [(7, 0)]).mem 254 (encode (.call 7))) :=
  ⟨⟨by decide, by decide, fun k => by match k with | ⟨0, _⟩ => rfl | ⟨1, _⟩ => rfl⟩,
    ⟨by decide, by decide, fun k => by match k with | ⟨0, _⟩ => rfl | ⟨1, _⟩ => rfl⟩⟩

theorem witness_OnlyCompareWritesTheFlags :
    exec (.cmp 0 0) State.reset = .next ((State.reset.setFl 0x01).advance 2) ∧ ((State.reset.setFl 0x01).advance 2).fl ≠ State.reset.fl :=
  ⟨rfl, by decide⟩

theorem witness_OnlyPushAndCallStore :
    exec (.push 7) State.reset = .next ((pushed State.reset 0xF3).advance 1) ∧
      memRead ((pushed State.reset 0xF3).advance 1).mem 0xF3 ≠ memRead State.reset.mem 0xF3 :=
  ⟨exec_push State.reset (ra := 7) (by decide) (by decide), by
    rw [memRead_of_lt (by decide), memRead_of_lt (by decide)]
    intro h
    exact absurd (Except.ok.inj h) (by decide)⟩

/-- For POP too, whose two written registers may differ. -/
theorem witness_RegistersWrittenAreThoseOfTheAccessTable :
    ((0 : Reg) : Nat) ∉ writtenRegisters (.pop 1) ∧ (∃ t, exec (.pop 1) State.reset = .next t) :=
  ⟨by decide, _, rfl⟩

theorem witness_UnreadFlagBitsInfluenceNothing :
    (0xFE : Byte).getLsbD 0 = State.reset.fl.getLsbD 0 ∧
      step State.reset = .next (State.reset.setRun (.error .unsupportedOperation 0)) := ⟨by decide, rfl⟩

theorem witness_PcAdvancesPastTheInstruction :
    State.reset.run = .running ∧ exec (.ldi 0 8) State.reset = .next ((State.reset.setReg 0 8).advance 2) ∧
      ((State.reset.setReg 0 8).advance 2).run = .running ∧ (opcodeFields (opcode (Instr.ldi 0 8).mnemonic)).setsPc = false ∧
      Instr.ldi 0 8 ≠ .hlt :=
  ⟨rfl, rfl, rfl, by decide, by decide⟩

/-- The operand bytes of every instruction's statement: the first and the last register. -/
theorem witness_register_operands : (0x00 : Byte).toNat < 8 ∧ (0x07 : Byte).toNat < 8 := by decide

/-- Both clauses of ModGivesTheRemainderOrRaises. -/
theorem witness_ModGivesTheRemainderOrRaises : State.reset.reg 7 ≠ 0 ∧ State.reset.reg 6 = 0 := by decide

/-- The three clauses of CompareWritesFlagsWhole, at neighbouring values. -/
theorem witness_CompareWritesFlagsWhole :
    ((start 0 [] [(0, 0x80), (1, 0x80)]).reg 0).toNat = ((start 0 [] [(0, 0x80), (1, 0x80)]).reg 1).toNat ∧
    ((start 0 [] [(0, 0x80), (1, 0x7F)]).reg 0).toNat > ((start 0 [] [(0, 0x80), (1, 0x7F)]).reg 1).toNat ∧
    ((start 0 [] [(0, 0x7F), (1, 0x80)]).reg 0).toNat < ((start 0 [] [(0, 0x7F), (1, 0x80)]).reg 1).toNat := by decide

/-- SP at the edge of the hypothesis `SP is not 0`, and at 0 (PushStoresBelowTheStackPointer, CallPushesTheReturnAddress,
PushThenPopRoundTrips, CallThenRetReturnsPastTheCall; PushAndCallAtZeroEnterUndefined). -/
theorem witness_stack_pointer : (start 0 [] [(7, 1)]).reg 7 ≠ 0 ∧ (start 0 [] [(7, 0)]).reg 7 = 0 := by decide

/-- Both clauses of PopLoadsFromTheStackPointer. -/
theorem witness_PopLoadsFromTheStackPointer : (0x06 : Byte).toNat ≠ 7 ∧ (0x07 : Byte).toNat = 7 := by decide

/-- The clauses of ConditionalJumpsFollowTheEqualFlag, the last address an instruction of two bytes can stand at. -/
theorem witness_ConditionalJumpsFollowTheEqualFlag :
    ((start 254 [] []).setFl 0x01).fl.getLsbD 0 = true ∧ (start 254 [] []).fl.getLsbD 0 = false ∧
      (start 254 [] []).pc.toNat ≤ 254 := by decide

/-- Both clauses of LoadWritesTheImageOrRaisesLoadError. -/
theorem witness_LoadWritesTheImageOrRaisesLoadError :
    (List.replicate 256 (0x01 : Byte)).length ≤ 256 ∧ 256 < (List.replicate 257 (0x01 : Byte)).length := by
  rw [List.length_replicate, List.length_replicate]; decide

/-- Both clauses of PrefetchMattersOnlyInTheLastTwoBytes. -/
theorem witness_PrefetchMattersOnlyInTheLastTwoBytes :
    (253 ≤ 253) ∧ (254 ≤ 254 ∧ memRead [(254, 0x47)] 254 = .ok 0x47 ∧ (0x47 : Byte) ≠ 0x01 ∧ (0x47 : Byte).toNat / 64 ≠ 3) :=
  ⟨by decide, by decide, rfl, by decide, by decide⟩

end Sys2Proof.Tests
end

/-! ### What every instruction keeps: lemmas about `exec` and `step`, and the statements about the state (spec/10_state.md) -/

section

namespace Sys2Proof.Machine

open Sys2Proof.Safety

/-! ### Register operands out of range -/

/-- The register checks of a two-operand format fail as soon as one operand does (40_execution_cycle.md R116). -/
theorem registerOperands_bind_of_not_lt {α : Type} {ra rb : Byte} (h : ¬ (ra.toNat < 8 ∧ rb.toNat < 8))
    (f : Reg → Reg → Except Stop α) :
    (registerOperand ra >>= fun a => registerOperand rb >>= fun b => f a b) = .error (.error .outOfRange) := by
  obtain ⟨ha, hra⟩ | ⟨-, hra⟩ := registerOperand_cases ra
  · have hb : 8 ≤ rb.toNat := Nat.le_of_not_lt fun hb => h ⟨ha, hb⟩
    rw [hra, registerOperand_of_ge hb, ok_bind_eq, error_bind_eq]
  · rw [hra, error_bind_eq]

theorem aluBinary_of_not_lt (f : Byte → Byte → Byte) {ra rb : Byte} (s : State)
    (h : ¬ (ra.toNat < 8 ∧ rb.toNat < 8)) : aluBinary f ra rb s = .error (.error .outOfRange) :=
  registerOperands_bind_of_not_lt h _

/-- An ill-formed instruction raises OutOfRange whatever else the state holds. -/
theorem exec_of_not_wellFormed {i : Instr} (hw : ¬ i.WellFormed) (s : State) :
    exec i s = .next (s.setRun (.error .outOfRange s.pc)) := by
  simp only [Instr.WellFormed, nreg_eq] at hw
  cases i with
  | hlt | ret => simp [Instr.registerOperands] at hw
  | push ra | pop ra | prn ra | pra ra | call ra | jmp ra | jeq ra | jne ra | not ra | ldi ra imm =>
    have hge : 8 ≤ ra.toNat := by simpa [Instr.registerOperands] using hw
    simp only [exec, execPush, execPop, execPrn, execPra, emitRegister, execCall, execJmp, execJeq, execJne,
      jumpWhenEqualFlagIs, execNot, aluUnary, execLdi, registerOperand_of_ge hge, error_bind_eq, settle_error]
  | add ra rb | sub ra rb | mul ra rb | and ra rb | or ra rb | xor ra rb | shl ra rb | shr ra rb =>
    have hlt : ¬ (ra.toNat < 8 ∧ rb.toNat < 8) := by simpa [Instr.registerOperands] using hw
    simp only [exec, execAdd, execSub, execMul, execAnd, execOr, execXor, execShl, execShr,
      aluBinary_of_not_lt _ s hlt, settle_error]
  | mod ra rb | cmp ra rb =>
    have hlt : ¬ (ra.toNat < 8 ∧ rb.toNat < 8) := by simpa [Instr.registerOperands] using hw
    simp only [exec, execMod, execCmp, registerOperands_bind_of_not_lt hlt, settle_error]

/-- Everything `exec` can answer: OutOfRange from a register operand, or the instruction's own effect. -/
theorem exec_cases {i : Instr} {s t : State} (h : exec i s = .next t) :
    t = s.setRun (.error .outOfRange s.pc) ∨ Effect i s t := by
  by_cases hw : i.WellFormed
  · exact .inr (exec_effect hw h)
  · rw [exec_of_not_wellFormed hw] at h
    cases h
    exact .inl rfl

/-! ### What an instruction does to each field of the state -/

section Fields

variable {i : Instr} {s t : State}

/-- FL is as before, or the instruction is a CMP and FL is E, G or L alone (10_state.md R28). -/
theorem exec_fl (h : exec i s = .next t) :
    t.fl = s.fl ∨ (∃ ra rb, i = .cmp ra rb) ∧ (t.fl = 0x01 ∨ t.fl = 0x02 ∨ t.fl = 0x04) := by
  obtain rfl | he := exec_cases h
  · exact .inl rfl
  · cases he with
    | compares ra rb v hi hv => exact .inr ⟨⟨ra, rb, hi⟩, hv⟩
    | _ => exact .inl rfl

/-- Memory stays canonical. -/
theorem exec_mem_wf (hm : s.mem.wf) (h : exec i s = .next t) : t.mem.wf := by
  obtain rfl | he := exec_cases h
  · exact hm
  · cases he with
    | pushes | calls => exact Memory.wf_set hm (s.reg 7 - 1).isLt _
    | _ => exact hm

/-- The output stream is as before, or longer by the one event of a PRN or PRA (10_state.md R31). -/
theorem exec_out (h : exec i s = .next t) :
    t.out = s.out ∨ ∃ (ra : Byte) (ha : ra.toNat < 8),
      (i = .prn ra ∧ t.out = s.out ++ [.dec (s.reg ⟨ra.toNat, ha⟩)]) ∨
      (i = .pra ra ∧ t.out = s.out ++ [.chr (s.reg ⟨ra.toNat, ha⟩)]) := by
  obtain rfl | he := exec_cases h
  · exact .inl rfl
  · cases he with
    | printsNumber ra ha hi => exact .inr ⟨ra, ha, .inl ⟨hi, rfl⟩⟩
    | printsCharacter ra ha hi => exact .inr ⟨ra, ha, .inr ⟨hi, rfl⟩⟩
    | _ => exact .inl rfl

/-- The run state is as before, or nothing but the run state changes: HLT, an error at the PC, or the undefined case with
SP = 0 (10_state.md R30). -/
theorem exec_run (h : exec i s = .next t) :
    t.run = s.run ∨ (i = .hlt ∧ t = s.setRun .halted) ∨ (∃ k, t = s.setRun (.error k s.pc)) ∨
      (s.reg 7 = 0 ∧ t = s.setRun (.undefined .stackUnderflow s.pc)) := by
  obtain rfl | he := exec_cases h
  · exact .inr (.inr (.inl ⟨_, rfl⟩))
  · cases he with
    | halts hi => exact .inr (.inl ⟨hi, rfl⟩)
    | dividesByZero => exact .inr (.inr (.inl ⟨_, rfl⟩))
    | underflows ra ha hi h0 => exact .inr (.inr (.inr ⟨h0, rfl⟩))
    | _ => exact .inl rfl

/-- The instructions of `Effect.writesRegister3` are three bytes long and write their first operand alone. -/
theorem length_and_writes_of_writesRegister3 {ra rb : Byte}
    (hi : i ∈ [.add ra rb, .sub ra rb, .mul ra rb, .mod ra rb, .and ra rb, .or ra rb, .xor ra rb, .shl ra rb,
      .shr ra rb, .ldi ra rb]) : (encode i).length = 3 ∧ writtenRegisters i = [ra.toNat] := by
  simp only [List.mem_cons, List.not_mem_nil, or_false] at hi
  obtain rfl | rfl | rfl | rfl | rfl | rfl | rfl | rfl | rfl | rfl := hi <;> exact ⟨rfl, rfl⟩

theorem advance_pc (s : State) (n : Nat) : (s.advance n).pc = s.pc + BitVec.ofNat 9 (n + 1) := by
  rw [State.advance_eq, State.setPc_pc, Nat.add_comm n 1, BitVec.ofNat_add, BitVec.add_assoc]
  rfl

theorem jumpTo_pc_lt (s : State) (v : Byte) : (s.jumpTo v).pc.toNat < 256 := by
  rw [State.jumpTo_eq, State.setPc_pc, BitVec.toNat_setWidth]
  omega

/-- The PC is as before, or an 8-bit target, or past the bytes of the instruction (40_execution_cycle.md R117). -/
theorem exec_pc (h : exec i s = .next t) :
    t.pc = s.pc ∨ t.pc.toNat < 256 ∨ t.pc = s.pc + BitVec.ofNat 9 (encode i).length := by
  obtain rfl | he := exec_cases h
  · exact .inl rfl
  · cases he with
    | halts | dividesByZero | underflows => exact .inl rfl
    | calls | jumps => exact .inr (.inl (jumpTo_pc_lt _ _))
    | returns v => exact .inr (.inl (jumpTo_pc_lt s v))
    | writesRegister3 ra rb ha v hi =>
      obtain ⟨hlen, -⟩ := length_and_writes_of_writesRegister3 hi
      exact .inr (.inr (hlen ▸ advance_pc _ 2))
    | compares ra rb v hi => exact .inr (.inr (hi ▸ advance_pc _ 2))
    | complements ra ha v hi | printsNumber ra ha hi | printsCharacter ra ha hi | pushes ra v hi | pops ra v w ha hi =>
      exact .inr (.inr (hi ▸ advance_pc _ 1))
    | fallsThrough ra hi => obtain rfl | rfl := hi <;> exact .inr (.inr (advance_pc _ 1))

/-- An instruction whose bytes lie inside memory leaves the PC at most 256 (10_state.md R25). -/
theorem exec_pc_le (hl : s.pc.toNat + (encode i).length ≤ 256) (h : exec i s = .next t) : t.pc.toNat ≤ 256 := by
  obtain hpc | hpc | hpc := exec_pc h
  · rw [hpc]; omega
  · omega
  · rw [hpc, BitVec.toNat_add, BitVec.toNat_ofNat]; omega

/-- Writing one register leaves a register of another number as it was. -/
theorem setReg_reg_of_ne (s : State) {a r : Reg} (v : Byte) (h : (r : Nat) ≠ a) : (s.setReg a v).reg r = s.reg r := by
  rw [State.setReg_reg, if_neg fun e => h (congrArg Fin.val e)]

/-- A register outside the `writes` column of 10_state.md R24 reads as before. -/
theorem exec_reg (h : exec i s = .next t) {r : Reg} (hr : (r : Nat) ∉ writtenRegisters i) : t.reg r = s.reg r := by
  obtain rfl | he := exec_cases h
  · rfl
  · cases he with
    | writesRegister3 ra rb ha v hi =>
      obtain ⟨-, hwrites⟩ := length_and_writes_of_writesRegister3 hi
      exact setReg_reg_of_ne s v fun e => hr (by simp [hwrites, e])
    | complements ra ha v hi => exact setReg_reg_of_ne s v fun e => hr (by simp [hi, writtenRegisters, e])
    | pushes ra v hi | calls ra v w hi | returns v w hi =>
      exact setReg_reg_of_ne s _ fun e => hr (by simp [hi, writtenRegisters, e])
    | pops ra v w ha hi =>
      have h7 : (r : Nat) ≠ (7 : Reg) := fun e => hr (by simp [hi, writtenRegisters, e])
      have hra : (r : Nat) ≠ ra.toNat := fun e => hr (by simp [hi, writtenRegisters, e])
      exact (setReg_reg_of_ne _ w h7).trans (setReg_reg_of_ne s v hra)
    | _ => rfl

end Fields

/-! ### Where a fetched instruction stands, and one equation per case of a step -/

/-- The operand bytes of an assembled instruction are as many of the fetched bytes as its format has. -/
theorem operandBytes_assemble (m : Mnemonic) (a b : Byte) :
    (Instr.assemble a b m).operandBytes = [a, b].take (opcodeFields (opcode m)).operandCount := by
  cases m <;> rfl

/-- A fetched instruction's encoding stands in memory from the fetch address on (40_execution_cycle.md R112, R114). -/
theorem bytesAt_encode_of_fetchInstr {pf : Bool} {m : Memory} {p : Nat} {i : Instr} (h : fetchInstr pf m p = .ok i) :
    BytesAt m p (encode i) := by
  obtain ⟨hlen, hop, hi⟩ := fetchInstr_eq_ok h
  have henc : encode i = ((List.range 3).map fun j => m.get (p + j)).take
      ((opcodeFields (opcode i.mnemonic)).operandCount + 1) :=
    congrArg₂ List.cons hop.symm ((congrArg Instr.operandBytes hi).trans (operandBytes_assemble _ _ _))
  intro k
  rw [memRead_of_lt (Nat.lt_of_lt_of_le (Nat.add_lt_add_left k.isLt p) hlen), List.get_eq_getElem,
    List.getElem_of_eq henc]
  simp

/-- The byte at the fetch address of a fetched instruction is its opcode. -/
theorem memRead_opcode_of_fetchInstr {pf : Bool} {m : Memory} {p : Nat} {i : Instr} (h : fetchInstr pf m p = .ok i) :
    memRead m p = .ok (opcode i.mnemonic) :=
  bytesAt_encode_of_fetchInstr h ⟨0, Nat.succ_pos _⟩

section Step

variable {s : State}

theorem step_of_cancel (hr : s.run = .running) (hc : s.cancelAsserted = true) : step s = .next (s.setRun .cancelled) := by
  simp only [step, cycle, hr, hc, if_true]

theorem step_of_fetch_error {k : ErrorKind} (hr : s.run = .running) (hc : s.cancelAsserted = false)
    (hf : fetchInstr Config.prefetchOperands s.mem s.pc.toNat = .error k) :
    step s = .next (s.nextSample.setRun (.error k s.pc)) := by
  simp [step, cycle, runInstruction, raise, hr, hc, hf]

theorem step_of_fetch_ok {i : Instr} (hr : s.run = .running) (hc : s.cancelAsserted = false)
    (hf : fetchInstr Config.prefetchOperands s.mem s.pc.toNat = .ok i) : step s = exec i s.nextSample := by
  simp [step, cycle, runInstruction, hr, hc, hf]

theorem step_of_ended (hr : s.run = .halted ∨ s.run = .cancelled ∨ ∃ k p, s.run = .error k p) : step s = .next s := by
  obtain hr | hr | ⟨k, p, hr⟩ := hr <;> simp only [step, cycle, hr]

end Step

/-! ### The bits of FL that no instruction reads -/

/-- Every instruction acts alike on two states that differ only in FL and not in its bit E, and what it answers differs again
only there (10_state.md R28). -/
theorem exec_setFl {i : Instr} {s t : State} {f : Byte} (hf : f.getLsbD 0 = s.fl.getLsbD 0) (h : exec i s = .next t) :
    ∃ g : Byte, exec i (s.setFl f) = .next (t.setFl g) ∧ g.getLsbD 0 = t.fl.getLsbD 0 := by
  by_cases hw : i.WellFormed
  case neg =>
    rw [exec_of_not_wellFormed hw] at h ⊢
    cases h
    exact ⟨f, rfl, hf⟩
  simp only [Instr.WellFormed, nreg_eq] at hw
  cases i with
  | hlt => cases h; exact ⟨f, rfl, hf⟩
  | ret =>
    rw [exec_ret] at h ⊢
    cases h
    exact ⟨f, rfl, hf⟩
  | pop ra | prn ra | pra ra | jmp ra | not ra | ldi ra imm =>
    have ha : ra.toNat < 8 := by simpa [Instr.registerOperands] using hw
    simp only [exec_pop _ ha, exec_prn _ ha, exec_pra _ ha, exec_jmp _ ha, exec_not _ ha, exec_ldi _ _ ha] at h ⊢
    cases h
    exact ⟨f, rfl, hf⟩
  | push ra | call ra =>
    have ha : ra.toNat < 8 := by simpa [Instr.registerOperands] using hw
    by_cases h0 : s.reg 7 = 0
    · simp only [exec_push_zero s ha h0, exec_push_zero (s.setFl f) ha h0, exec_call_zero s ha h0,
        exec_call_zero (s.setFl f) ha h0] at h ⊢
      cases h
      exact ⟨f, rfl, hf⟩
    · simp only [exec_push s ha h0, exec_push (s.setFl f) ha h0, exec_call s ha h0, exec_call (s.setFl f) ha h0] at h ⊢
      cases h
      exact ⟨f, rfl, hf⟩
  | jeq ra | jne ra =>
    have ha : ra.toNat < 8 := by simpa [Instr.registerOperands] using hw
    have hE : (s.setFl f).equalFlag = s.equalFlag := hf
    simp only [exec_jeq _ ha, exec_jne _ ha, hE] at h ⊢
    cases h
    split <;> exact ⟨f, rfl, hf⟩
  | add ra rb | sub ra rb | mul ra rb | and ra rb | or ra rb | xor ra rb | shl ra rb | shr ra rb =>
    obtain ⟨ha, hb⟩ : ra.toNat < 8 ∧ rb.toNat < 8 := by simpa [Instr.registerOperands] using hw
    simp only [exec_add _ ha hb, exec_sub _ ha hb, exec_mul _ ha hb, exec_and _ ha hb, exec_or _ ha hb, exec_xor _ ha hb,
      exec_shl _ ha hb, exec_shr _ ha hb] at h ⊢
    cases h
    exact ⟨f, rfl, hf⟩
  | mod ra rb =>
    obtain ⟨ha, hb⟩ : ra.toNat < 8 ∧ rb.toNat < 8 := by simpa [Instr.registerOperands] using hw
    by_cases h0 : s.reg ⟨rb.toNat, hb⟩ = 0
    · rw [exec_mod_zero s ha hb h0] at h
      cases h
      exact ⟨f, exec_mod_zero (s.setFl f) ha hb h0, hf⟩
    · rw [exec_mod s ha hb h0] at h
      cases h
      exact ⟨f, exec_mod (s.setFl f) ha hb h0, hf⟩
  | cmp ra rb =>
    obtain ⟨ha, hb⟩ : ra.toNat < 8 ∧ rb.toNat < 8 := by simpa [Instr.registerOperands] using hw
    rw [exec_cmp _ ha hb] at h ⊢
    cases h
    exact ⟨_, rfl, rfl⟩

end Sys2Proof.Machine

namespace Sys2Proof.Proofs

open Sys2Proof.Machine Sys2Proof.Safety

/-- Settles O21: an instruction runs only where its bytes lie inside memory, so the PC stays in range; a run state other than
RUNNING is entered with nothing else changed. -/
theorem stepKeepsTheInvariant : Obligations.StepKeepsTheInvariant := by
  rintro s t ⟨hm, hpc, hfl, hrc⟩ h
  obtain ⟨hr, hc, hs⟩ | ⟨hr, hc, k, hf, hs⟩ | ⟨hr, hc, i, hf, hs⟩ | ⟨-, hs⟩ | ⟨u, p, -, hs⟩ := step_cases s <;>
    rw [hs] at h
  · cases h
    exact ⟨hm, hpc, hfl, rfl⟩
  · cases h
    exact ⟨hm, hpc, hfl, decide_eq_true rfl⟩
  · obtain ⟨hlen, -, -⟩ := fetchInstr_eq_ok hf
    refine ⟨exec_mem_wf (s := s.nextSample) hm h, exec_pc_le (s := s.nextSample) hlen h, ?_, ?_⟩
    · obtain hfl' | ⟨-, hfl'⟩ := exec_fl h
      · exact hfl'.symm ▸ hfl
      · exact .inr hfl'
    · obtain hrun | ⟨rfl, rfl⟩ | ⟨k, rfl⟩ | ⟨h0, rfl⟩ := exec_run h
      · simp [runConsistent, hrun, hr]
      · exact decide_eq_true (memRead_eq_ok_iff.mp (memRead_opcode_of_fetchInstr hf))
      · exact decide_eq_true rfl
      · exact decide_eq_true ⟨rfl, h0⟩
  · cases h
    exact ⟨hm, hpc, hfl, hrc⟩
  · cases h

/-- Settles O30: of FL an instruction reads bit E alone, and everything else of a step reads nothing of FL. -/
theorem unreadFlagBitsInfluenceNothing : Obligations.UnreadFlagBitsInfluenceNothing := by
  intro s t f hf h
  change ∃ g, step (s.setFl f) = .next (t.setFl g) ∧ _
  obtain ⟨hr, hc, hs⟩ | ⟨hr, hc, k, hfetch, hs⟩ | ⟨hr, hc, i, hfetch, hs⟩ | ⟨hr, hs⟩ | ⟨u, p, -, hs⟩ := step_cases s <;>
    rw [hs] at h
  · cases h
    exact ⟨f, step_of_cancel hr hc, hf⟩
  · cases h
    exact ⟨f, step_of_fetch_error hr hc hfetch, hf⟩
  · obtain ⟨g, hg, hbit⟩ := exec_setFl (s := s.nextSample) hf h
    exact ⟨g, (step_of_fetch_ok (s := s.setFl f) hr hc hfetch).trans hg, hbit⟩
  · cases h
    exact ⟨f, step_of_ended hr, hf⟩
  · cases h

/-- Settles O14: of a RUNNING state's steps, only the one that runs HLT answers HALTED, and its byte was fetched at the PC. -/
theorem haltedIsEnteredOnlyByTheHaltCode : Obligations.HaltedIsEnteredOnlyByTheHaltCode := by
  intro s t hrunning h hhalted
  obtain ⟨-, -, hs⟩ | ⟨-, -, k, -, hs⟩ | ⟨-, -, i, hf, hs⟩ | ⟨hr, -⟩ | ⟨u, p, hr, -⟩ := step_cases s
  · rw [hs] at h; cases h; cases hhalted
  · rw [hs] at h; cases h; cases hhalted
  · rw [hs] at h
    obtain hrun | ⟨rfl, -⟩ | ⟨k, rfl⟩ | ⟨-, rfl⟩ := exec_run h
    · simp [hrun, hrunning] at hhalted
    · exact memRead_opcode_of_fetchInstr hf
    · cases hhalted
    · cases hhalted
  · simp [hrunning] at hr
  · simp [hrunning] at hr

/-- Settles O17: every meaning checks its register operands before it does anything else. -/
theorem registerOperandOutOfRangeRaisesOutOfRange : Obligations.RegisterOperandOutOfRangeRaisesOutOfRange :=
  fun _ s hw => exec_of_not_wellFormed hw s

/-- Settles O26, by what an instruction does to FL. -/
theorem onlyCompareWritesTheFlags : Obligations.OnlyCompareWritesTheFlags := by
  intro i s t h hne
  obtain heq | ⟨hcmp, -⟩ := exec_fl h
  · exact absurd heq hne
  · exact hcmp

/-- Settles O28, by what an instruction does to the registers. -/
theorem registersWrittenAreThoseOfTheAccessTable : Obligations.RegistersWrittenAreThoseOfTheAccessTable :=
  fun _ _ _ h _ hr => exec_reg h hr

/-- Settles O29: only a step that runs a PRN or PRA touches the stream, and that instruction's bytes were fetched at the PC. -/
theorem outputIsOnlyAppendedTo : Obligations.OutputIsOnlyAppendedTo := by
  refine ⟨rfl, fun s t h => ?_⟩
  obtain ⟨-, -, hs⟩ | ⟨-, -, k, -, hs⟩ | ⟨-, -, i, hf, hs⟩ | ⟨-, hs⟩ | ⟨u, p, -, hs⟩ := step_cases s <;> rw [hs] at h
  · cases h; exact .inl rfl
  · cases h; exact .inl rfl
  · have hbytes := bytesAt_encode_of_fetchInstr hf
    obtain hout | ⟨ra, ha, ⟨rfl, hout⟩ | ⟨rfl, hout⟩⟩ := exec_out h
    · exact .inl hout
    · exact .inr ⟨ra, ha, .inl ⟨hbytes, hout⟩⟩
    · exact .inr ⟨ra, ha, .inr ⟨hbytes, hout⟩⟩
  · cases h; exact .inl rfl
  · cases h

end Sys2Proof.Proofs

end

/-! ### Memory: what a canonical list of cells is determined by, what an instruction does to memory, and the statements about
memory (spec/20_memory.md) -/

section

namespace Sys2Proof.Machine

/-- An address that reads otherwise than memory after construction is listed, whether or not the list is canonical. -/
theorem Memory.mem_of_get_ne_memReset {m : Memory} {a : Nat} (h : m.get a ≠ Config.memReset) : (a, m.get a) ∈ m := by
  induction m with
  | nil => exact absurd (Memory.get_nil a) h
  | cons c m ih =>
    rw [Memory.get_cons] at h ⊢
    by_cases ha : a = c.1
    · simp [ha]
    · rw [if_neg ha] at h ⊢
      exact List.mem_cons_of_mem c (ih h)

/-- Where the addresses rise strictly, no entry hides another: reading at a listed cell's address gives its byte. -/
theorem Memory.get_of_mem {m : Memory} (hm : m.Pairwise (fun c d => c.1 < d.1)) {c : Host.Cell} (hc : c ∈ m) :
    m.get c.1 = c.2 := by
  induction m with
  | nil => cases hc
  | cons d m ih =>
    obtain ⟨hd, hm'⟩ := List.pairwise_cons.mp hm
    rw [Memory.get_cons]
    obtain rfl | hc := List.mem_cons.mp hc
    · exact if_pos rfl
    · rw [if_neg (hd c hc).ne', ih hm' hc]

/-- The entries of a canonical memory are the reads that differ from memory after construction. -/
theorem Memory.mem_iff_memRead {m : Memory} (hm : m.wf) (c : Host.Cell) :
    c ∈ m ↔ memRead m c.1 = .ok c.2 ∧ c.2 ≠ Config.memReset := by
  obtain ⟨hp, hcells⟩ := hm
  rw [memRead_eq_ok_iff]
  constructor
  · intro hc
    obtain ⟨hlt, hne⟩ := hcells c hc
    exact ⟨⟨hlt, Memory.get_of_mem hp hc⟩, hne⟩
  · rintro ⟨⟨-, hget⟩, hne⟩
    have hc := Memory.mem_of_get_ne_memReset (hget.symm ▸ hne)
    rwa [hget] at hc

/-- Memory is as before, or the instruction is a PUSH or a CALL and one cell is set, the one at SP - 1 (20_memory.md R53). -/
theorem exec_mem {i : Instr} {s t : State} (h : exec i s = .next t) :
    t.mem = s.mem ∨ (∃ ra, i = .push ra ∨ i = .call ra) ∧ ∃ v, t.mem = s.mem.set (s.reg 7 - 1).toNat v := by
  obtain rfl | he := exec_cases h
  · exact .inl rfl
  · cases he with
    | pushes ra v hi => exact .inr ⟨⟨ra, .inl hi⟩, v, rfl⟩
    | calls ra v w hi => exact .inr ⟨⟨ra, .inr hi⟩, v, rfl⟩
    | _ => exact .inl rfl

end Sys2Proof.Machine

namespace Sys2Proof.Proofs

open Sys2Proof.Machine

/-- Settles O6, by the laws of MemWrite inside and outside memory and of reading after a cell is set. -/
theorem memWriteChangesOnlyTheAddressedCell : Obligations.MemWriteChangesOnlyTheAddressedCell := by
  refine fun m a v => ⟨fun ha => ?_, memWrite_of_ge⟩
  have hlt : a < 256 := Nat.lt_succ_of_le ha
  refine ⟨m.set a (trunc8 v), memWrite_of_lt hlt, ⟨trunc8 v, ?_, BitVec.toNat_ofNat v 8⟩, fun c hc => ?_⟩
  · rw [memRead_set, if_pos ⟨rfl, hlt⟩]
  · rw [memRead_set, if_neg fun hca => hc hca.1]

/-- Settles O8: the entries of a canonical memory are its reads, so the two lists have the same entries, in one order. -/
theorem canonicalMemoriesReadingAlikeAreEqual : Obligations.CanonicalMemoriesReadingAlikeAreEqual := by
  intro m n hm hn h
  have hmem (c : Host.Cell) : c ∈ m ↔ c ∈ n := by
    rw [Memory.mem_iff_memRead hm, Memory.mem_iff_memRead hn, h]
  exact hm.1.eq_of_mem_iff hn.1 hmem

/-- Settles O27, by what an instruction does to memory: a set cell changes no read at another address. -/
theorem onlyPushAndCallStore : Obligations.OnlyPushAndCallStore := by
  intro i s t h a hne
  obtain hmem | ⟨hi, v, hmem⟩ := exec_mem h
  · exact absurd (by rw [hmem]) hne
  · refine ⟨?_, hi⟩
    by_contra ha
    rw [hmem, memRead_set, if_neg fun hcell => ha hcell.1] at hne
    exact hne rfl

/-- Settles O7, by the laws of MemRead inside and outside memory. -/
theorem memReadIsBoundsChecked : Obligations.MemReadIsBoundsChecked :=
  fun m a => ⟨fun ha => ⟨m.get a, memRead_of_lt (Nat.lt_succ_of_le ha)⟩, memRead_of_ge⟩

end Sys2Proof.Proofs

end

/-! ### The encoding: an instruction's bytes and its operand bytes, the legal opcode bytes, the fields of an opcode byte, and
the statements about them (spec/30_encoding.md) -/

section

namespace Sys2Proof

open Sys2Proof.Safety

/-- An instruction is assembled again from its own operand bytes: a byte behind them is one its format does not use. -/
theorem assemble_operandBytes (i : Instr) (rest : List Byte) :
    Instr.assemble ((i.operandBytes ++ rest).getD 0 0) ((i.operandBytes ++ rest).getD 1 0) i.mnemonic = i := by
  cases i <;> rfl

/-- An operation has at most two operand bytes (30_encoding.md R81, R84). -/
theorem opcode_operandCount_le_two (m : Mnemonic) : (opcodeFields (opcode m)).operandCount ≤ 2 := by
  cases m <;> decide

/-- The two operand slots of the decoder hold the first bytes of the tail, where it has them. -/
theorem take_operandSlots {n : Nat} {tail : List Byte} (hn : n ≤ 2) (hlen : n ≤ tail.length) :
    [tail.getD 0 0, tail.getD 1 0].take n = tail.take n := by
  match tail, n, hn with
  | _, 0, _ => rfl
  | _ :: _, 1, _ => rfl
  | _ :: _ :: _, 2, _ => rfl

/-- The written-out opcode bytes are those of the 22 operations, in order (30_encoding.md R84). -/
theorem legalOpcodes_eq_map_opcode :
    legalOpcodes = [.hlt, .ret, .push, .pop, .prn, .pra, .call, .jmp, .jeq, .jne, .not, .ldi, .add, .sub, .mul, .mod,
      .cmp, .and, .or, .xor, .shl, .shr].map opcode := rfl

/-- A byte is legal exactly when it is some operation's opcode byte. -/
theorem mem_legalOpcodes_iff {b : Byte} : b ∈ legalOpcodes ↔ ∃ m, b = opcode m := by
  constructor
  · intro hb
    obtain ⟨m, -, hm⟩ := List.mem_map.mp (legalOpcodes_eq_map_opcode ▸ hb)
    exact ⟨m, hm.symm⟩
  · rintro ⟨m, rfl⟩
    cases m <;> decide

/-- A bit of a byte as arithmetic on its value. -/
theorem getLsbD_eq_true_iff (b : Byte) (k : Nat) : b.getLsbD k = true ↔ b.toNat / 2 ^ k % 2 = 1 := by
  rw [← BitVec.testBit_toNat, Nat.testBit_eq_decide_div_mod_eq, decide_eq_true_iff]

end Sys2Proof

namespace Sys2Proof.Proofs

open Sys2Proof.Machine Sys2Proof.Safety

/-- Settles O1: an encoding begins with its operation's opcode byte, and its operand bytes are as many as that byte says. -/
theorem decodeInvertsEncode : Obligations.DecodeInvertsEncode := by
  intro i rest
  have hlen := operandBytes_length i
  have hcount : (opcodeFields (opcode i.mnemonic)).operandCount ≤ (i.operandBytes ++ rest).length := by
    rw [List.length_append, hlen]
    exact Nat.le_add_right _ _
  rw [encode, List.cons_append, decode_opcode i.mnemonic _ hcount, assemble_operandBytes, List.drop_left' hlen]

/-- Settles O2: the decoder accepts an operation's own opcode byte alone, and splits the bytes behind it into the operand
bytes it keeps and the rest. -/
theorem decodedBytesAreTheEncoding : Obligations.DecodedBytesAreTheEncoding := by
  intro bs rest i h
  obtain ⟨op, tail, m, rfl, rfl, hlen, rfl, rfl⟩ := decode_eq_ok h
  rw [encode, assemble_mnemonic, operandBytes_assemble, take_operandSlots (opcode_operandCount_le_two m) hlen,
    List.cons_append, List.take_append_drop]

/-- Settles O3: the bytes that decode are the operations' opcode bytes, and two bytes behind one are always enough. -/
theorem onlyTheLegalOpcodesDecode : Obligations.OnlyTheLegalOpcodesDecode := by
  intro op opA opB tail
  rw [mem_legalOpcodes_iff]
  constructor
  · rintro ⟨i, rest, h⟩
    obtain ⟨_, _, m, hbytes, hop, -, -, -⟩ := decode_eq_ok h
    exact ⟨m, (List.cons.inj hbytes).1.trans hop⟩
  · rintro ⟨m, rfl⟩
    have hlen : 2 ≤ (opA :: opB :: tail).length := Nat.le_add_left 2 tail.length
    exact ⟨_, _, decode_opcode m _ ((opcode_operandCount_le_two m).trans hlen)⟩

/-- Settles O5: extracting bits from a byte is division and remainder by powers of two; N is the top field, so nothing above
it is cut off. -/
theorem opcodeFieldsOfEveryByte : Obligations.OpcodeFieldsOfEveryByte := by
  intro b
  refine ⟨?_, getLsbD_eq_true_iff b 5, getLsbD_eq_true_iff b 4, BitVec.extractLsb'_toNat 0 4 b⟩
  have hN : b.toNat / 64 < 4 := by omega
  calc (opcodeFields b).operandCount = b.toNat >>> 6 % 2 ^ 2 := BitVec.extractLsb'_toNat 6 2 b
    _ = b.toNat / 64 % 4 := by rw [Nat.shiftRight_eq_div_pow]
    _ = b.toNat / 64 := Nat.mod_eq_of_lt hN

end Sys2Proof.Proofs

end

/-! ### The execution cycle: the branches of the fetch, what the lookup rejects, runs of terminal states, and the statements
about the step (spec/40_execution_cycle.md) -/

section

namespace Sys2Proof

/-- The operand count of an opcode byte is its two highest bits (30_encoding.md R81). -/
theorem operandCount_eq_div (op : Byte) : (opcodeFields op).operandCount = op.toNat / 64 :=
  (Proofs.opcodeFieldsOfEveryByte op).1

/-- The halt code has no operand bytes. -/
theorem ne_haltCode_of_operandCount_three {op : Byte} (h3 : (opcodeFields op).operandCount = 3) : op ≠ haltCode := by
  rintro rfl
  exact absurd h3 (by decide)

theorem ne_haltCode_of_not_legal {op : Byte} (hleg : op ∉ Safety.legalOpcodes) : op ≠ haltCode := by
  rintro rfl
  exact absurd (by decide) hleg

/-- The sets-PC bit marks the control transfers (40_execution_cycle.md R117). -/
theorem opcode_setsPc_eq_false_iff (m : Mnemonic) :
    (opcodeFields (opcode m)).setsPc = false ↔ m ∉ Laws.OpcodeFields.pcSetters := by
  cases m <;> decide

end Sys2Proof

namespace Sys2Proof.Machine

open Sys2Proof.Safety

/-! ### The branches of the fetch -/

/-- The operand slots that are read behind the opcode byte `op` (92_eei_decisions.md D24). -/
def operandSlots (pf : Bool) (op : Byte) : Nat := if pf then 2 else (opcodeFields op).operandCount

/-- Unless the count is 3, at most two slots are read, and every counted operand byte is in one of them. -/
theorem operandSlots_bounds (pf : Bool) {op : Byte} (h3 : (opcodeFields op).operandCount ≠ 3) :
    (opcodeFields op).operandCount ≤ operandSlots pf op ∧ operandSlots pf op ≤ 2 := by
  have h2 : (opcodeFields op).operandCount ≤ 2 := by
    rw [operandCount_eq_div] at h3 ⊢
    omega
  cases pf with
  | true => exact ⟨h2, le_rfl⟩
  | false => exact ⟨le_rfl, h2⟩

section FetchBytes

variable {m : Memory} {p : Nat} {op : Byte} (pf : Bool)

theorem fetchBytes_of_ge (hp : 256 ≤ p) : fetchBytes pf m p = .error .outOfRange := by
  rw [fetchBytes, memRead_of_ge hp, error_bind_eq]

theorem fetchBytes_of_haltCode (hop : memRead m p = .ok haltCode) : fetchBytes pf m p = .ok [haltCode] := by
  rw [fetchBytes, hop, ok_bind_eq, if_pos rfl, pure_eq_ok]

theorem fetchBytes_of_operandCount_three (hop : memRead m p = .ok op) (h3 : (opcodeFields op).operandCount = 3) :
    fetchBytes pf m p = .error .unsupportedOperation := by
  rw [fetchBytes, hop, ok_bind_eq, if_neg (ne_haltCode_of_operandCount_three h3), if_pos h3, throw_eq_error]

/-- Past the halt test and the test of operand count 3, the slots are read and the counted bytes kept. -/
theorem fetchBytes_eq_readBytes (hop : memRead m p = .ok op) (hne : op ≠ haltCode)
    (h3 : (opcodeFields op).operandCount ≠ 3) :
    fetchBytes pf m p = readBytes m (p + 1) (operandSlots pf op) >>= fun operands =>
      pure (op :: operands.take (opcodeFields op).operandCount) := by
  rw [fetchBytes, hop, ok_bind_eq, if_neg hne, if_neg h3]
  rfl

theorem fetchBytes_of_slots_outside (hop : memRead m p = .ok op) (hne : op ≠ haltCode)
    (h3 : (opcodeFields op).operandCount ≠ 3) (hout : 256 ≤ p + operandSlots pf op) :
    fetchBytes pf m p = .error .outOfRange := by
  obtain ⟨hp, -⟩ := memRead_eq_ok_iff.mp hop
  rw [fetchBytes_eq_readBytes pf hop hne h3, readBytes_of_gt _ _ _ (by omega) (by omega), error_bind_eq]

/-- Where every slot exists, the fetched bytes do not depend on how many slots are read. -/
theorem fetchBytes_of_slots_inside (hop : memRead m p = .ok op) (hne : op ≠ haltCode)
    (h3 : (opcodeFields op).operandCount ≠ 3) (hin : p + operandSlots pf op < 256) :
    fetchBytes pf m p = .ok (op :: (List.range (opcodeFields op).operandCount).map fun k => m.get (p + 1 + k)) := by
  obtain ⟨hle, -⟩ := operandSlots_bounds pf h3
  rw [fetchBytes_eq_readBytes pf hop hne h3, readBytes_of_le _ _ _ (by omega), ok_bind_eq, pure_eq_ok, ← List.map_take,
    List.take_range, Nat.min_eq_left hle]

/-- Where both operand slots exist, reading them is of no consequence. -/
theorem fetchBytes_prefetch_eq (hp : p ≤ 253) : fetchBytes true m p = fetchBytes false m p := by
  have hop : memRead m p = .ok (m.get p) := memRead_of_lt (by omega)
  by_cases hh : m.get p = haltCode
  · rw [hh] at hop
    rw [fetchBytes_of_haltCode true hop, fetchBytes_of_haltCode false hop]
  by_cases h3 : (opcodeFields (m.get p)).operandCount = 3
  · rw [fetchBytes_of_operandCount_three true hop h3, fetchBytes_of_operandCount_three false hop h3]
  · have hin (pf : Bool) : p + operandSlots pf (m.get p) < 256 := by
      obtain ⟨-, h2⟩ := operandSlots_bounds pf h3
      omega
    rw [fetchBytes_of_slots_inside true hop hh h3 (hin true), fetchBytes_of_slots_inside false hop hh h3 (hin false)]

/-- Fetched bytes begin with the byte at the fetch address (40_execution_cycle.md R112). -/
theorem memRead_of_fetchBytes {pf : Bool} {bs : List Byte} (h : fetchBytes pf m p = .ok bs) :
    ∃ op tail, bs = op :: tail ∧ memRead m p = .ok op := by
  obtain ⟨hp, ⟨hop, hbs⟩ | ⟨-, hbs⟩⟩ := fetchBytes_eq_ok h
  · exact ⟨haltCode, [], hbs, memRead_eq_ok_iff.mpr ⟨hp, hop⟩⟩
  · exact ⟨m.get p, _, hbs, memRead_of_lt hp⟩

end FetchBytes

/-! ### From the fetched bytes to the instruction -/

section FetchInstr

variable {pf : Bool} {m : Memory} {p : Nat}

theorem fetchInstr_of_fetchBytes_error {k : ErrorKind} (h : fetchBytes pf m p = .error k) :
    fetchInstr pf m p = .error k := by
  rw [fetchInstr, h]

theorem fetchInstr_of_decode_error {bs : List Byte} {r : DecodeReject} (h : fetchBytes pf m p = .ok bs)
    (hd : decode bs = .error r) : fetchInstr pf m p = .error (rejectError r) := by
  simp only [fetchInstr, h, hd]

theorem fetchInstr_of_haltCode (h : memRead m p = .ok haltCode) : fetchInstr pf m p = .ok .hlt := by
  rw [fetchInstr, fetchBytes_of_haltCode pf h]
  rfl

/-- Whatever byte the lookup rejects, the error is UnsupportedOperation (30_encoding.md R87). -/
theorem rejectError_of_lookupOpcode {op : Byte} {r : DecodeReject} (h : lookupOpcode op = .error r) :
    rejectError r = .unsupportedOperation := by
  unfold lookupOpcode at h
  split at h
  · split at h
    · cases h; rfl
    · split at h <;> cases h; rfl
  · split at h <;> cases h; rfl

/-- A byte that is not legal is rejected by the lookup, and so by the decoder once its operand bytes are there. -/
theorem decode_of_not_legal {op : Byte} {tail : List Byte} (hleg : op ∉ legalOpcodes)
    (h3 : (opcodeFields op).operandCount ≠ 3) (hlen : (opcodeFields op).operandCount ≤ tail.length) :
    ∃ r, decode (op :: tail) = .error r ∧ rejectError r = .unsupportedOperation := by
  rcases hlk : lookupOpcode op with r | mn
  · refine ⟨r, ?_, rejectError_of_lookupOpcode hlk⟩
    rw [decode, if_neg (ne_haltCode_of_not_legal hleg), if_neg h3, if_neg (Nat.not_lt.mpr hlen), hlk]
  · exact absurd (mem_legalOpcodes_iff.mpr ⟨mn, eq_opcode_of_lookupOpcode hlk⟩) hleg

/-- A byte that is not legal is UnsupportedOperation: at once with operand count 3, else where the slots that are read exist
(40_execution_cycle.md R114, R115). -/
theorem fetchInstr_of_not_legal {op : Byte} (hop : memRead m p = .ok op) (hleg : op ∉ legalOpcodes)
    (h : (opcodeFields op).operandCount = 3 ∨ p + operandSlots pf op < 256) :
    fetchInstr pf m p = .error .unsupportedOperation := by
  by_cases h3 : (opcodeFields op).operandCount = 3
  · exact fetchInstr_of_fetchBytes_error (fetchBytes_of_operandCount_three pf hop h3)
  · have hbytes := fetchBytes_of_slots_inside pf hop (ne_haltCode_of_not_legal hleg) h3 (h.resolve_left h3)
    obtain ⟨r, hd, hr⟩ := decode_of_not_legal (tail := (List.range (opcodeFields op).operandCount).map fun k =>
      m.get (p + 1 + k)) hleg h3 (by simp)
    rw [fetchInstr_of_decode_error hbytes hd, hr]

/-- Bytes that stand in memory are the cells from there on, all at addresses that exist. -/
theorem bytesAt_getElem {bs : List Byte} (h : BytesAt m p bs) {k : Nat} (hk : k < bs.length) :
    p + k < 256 ∧ m.get (p + k) = bs[k] :=
  memRead_eq_ok_iff.mp (h ⟨k, hk⟩)

/-- What the bytes at an address decode to is what is fetched there. -/
theorem fetchInstr_of_bytesAt {bs rest : List Byte} {i : Instr} (hb : BytesAt m p bs) (hd : decode bs = .ok (i, rest)) :
    fetchInstr false m p = .ok i := by
  obtain ⟨op, tail, mn, rfl, rfl, hlen, rfl, -⟩ := decode_eq_ok hd
  have hget (k : Nat) (hk : k < tail.length) : m.get (p + (k + 1)) = tail.getD k 0 := by
    obtain ⟨-, hcell⟩ := bytesAt_getElem hb (Nat.succ_lt_succ hk)
    simp [hcell, hk]
  obtain ⟨hlast, -⟩ := bytesAt_getElem hb (k := tail.length) (Nat.lt_succ_self _)
  obtain ⟨-, hop⟩ := bytesAt_getElem hb (k := 0) (Nat.succ_pos _)
  refine fetchInstr_of_layout ?_ ?_ ?_
  · rw [encode, List.length_cons, operandBytes_length, assemble_mnemonic]
    omega
  · rw [assemble_mnemonic]
    exact hop
  · rw [assemble_mnemonic]
    exact assemble_congr mn (fun h => (hget 0 (by omega)).symm) (fun h => (hget 1 (by omega)).symm)

end FetchInstr

/-! ### What an instruction and a run answer -/

/-- Every meaning ends in a next state: it is the end of an instruction, or HLT. -/
theorem exec_answers (i : Instr) (s : State) : ∃ t, exec i s = .next t := by
  cases i with
  | hlt => exact ⟨_, rfl⟩
  | _ => exact settle_answers s _

/-- An instruction that is no control transfer and goes on RUNNING advances the PC past itself. -/
theorem exec_pc_of_not_setsPc {i : Instr} {s t : State} (h : exec i s = .next t) (hrun : t.run = .running)
    (hp : i.mnemonic ∉ Laws.OpcodeFields.pcSetters) : t.pc = (s.advance i.operandBytes.length).pc := by
  obtain rfl | he := exec_cases h
  · cases hrun
  · cases he with
    | halts | dividesByZero | underflows => cases hrun
    | writesRegister3 ra rb ha v hi =>
      obtain ⟨hlen, -⟩ := length_and_writes_of_writesRegister3 hi
      have hn : i.operandBytes.length = 2 := Nat.succ.inj hlen
      rw [hn]
      rfl
    | compares ra rb v hi | complements ra ha v hi | printsNumber ra ha hi | printsCharacter ra ha hi | pushes ra v hi
    | pops ra v w ha hi =>
      subst hi
      rfl
    | calls ra v w hi | returns v w hi => simp [hi, Instr.mnemonic, Laws.OpcodeFields.pcSetters] at hp
    | jumps ra v hi => obtain rfl | rfl | rfl := hi <;> simp [Instr.mnemonic, Laws.OpcodeFields.pcSetters] at hp
    | fallsThrough ra hi => obtain rfl | rfl := hi <;> simp [Instr.mnemonic, Laws.OpcodeFields.pcSetters] at hp

theorem step_of_undefined {s : State} {u : UndefinedReason} {p : Pc} (hr : s.run = .undefined u p) :
    step s = .fault (.undefinedState u p) := by
  simp only [step, cycle, hr]

section Run

variable {M : Host.Core} {s : M.State}

theorem run_succ_of_fault {r : M.Fault} (h : M.step s = .fault r) (n : Nat) : M.run (n + 1) s = .fault r := by
  rw [Host.Core.run, h]

/-- A state that steps to itself is what any run from it answers. -/
theorem run_of_step_self (h : M.step s = .next s) (n : Nat) : M.run n s = .next s := by
  induction n with
  | zero => rfl
  | succ n ih => rw [Host.Core.run, h]; exact ih

end Run

end Sys2Proof.Machine

namespace Sys2Proof.Proofs

open Sys2Proof.Machine Sys2Proof.Safety

/-- Settles O15: the byte is neither the halt code nor of count 3, so its operand slots are read, and one does not exist. -/
theorem operandFetchOutsideMemoryRaisesOutOfRange : Obligations.OperandFetchOutsideMemoryRaisesOutOfRange := by
  rintro s op ⟨hr, hc⟩ hop hne h3 hout
  rw [← operandCount_eq_div] at h3 hout
  exact step_of_fetch_error hr hc (fetchInstr_of_fetchBytes_error (fetchBytes_of_slots_outside false hop hne h3 hout))

/-- Settles O16: with operand count 3 the fetch rejects the byte, else the lookup does. -/
theorem unsupportedOpcodeRaisesUnsupportedOperation : Obligations.UnsupportedOpcodeRaisesUnsupportedOperation := by
  rintro s op ⟨hr, hc⟩ hop hleg h
  rw [← operandCount_eq_div] at h
  exact step_of_fetch_error hr hc (fetchInstr_of_not_legal hop hleg h)

/-- Settles O18: the fetch and the instruction are the two sources of an error, and neither changes more than the run state. -/
theorem raisingStepsArePrecise : Obligations.RaisingStepsArePrecise := by
  intro s t k p hrunning h herr
  obtain ⟨-, -, hs⟩ | ⟨-, -, k', -, hs⟩ | ⟨-, -, i, -, hs⟩ | ⟨hr, -⟩ | ⟨u, q, hr, -⟩ := step_cases s
  · rw [hs] at h; cases h; cases herr
  · rw [hs] at h; cases h; cases herr; rfl
  · rw [hs] at h
    obtain hrun | ⟨-, rfl⟩ | ⟨k', rfl⟩ | ⟨-, rfl⟩ := exec_run h
    · simp [hrun, hrunning] at herr
    · cases herr
    · cases herr; rfl
    · cases herr
  · simp [hrunning] at hr
  · simp [hrunning] at hr

/-- Settles O19: a terminal state steps to itself, and UNDEFINED to a fault, which ends a run at its first step. -/
theorem terminalStatesPersist : Obligations.TerminalStatesPersist :=
  ⟨fun n _ hr => run_of_step_self (M := core) (step_of_ended hr) n,
    fun n _ _ _ hr => run_succ_of_fault (M := core) (step_of_undefined hr) n⟩

/-- Settles O20: of the cases of a step only UNDEFINED answers no next state. -/
theorem stepAnswersExceptInUndefined : Obligations.StepAnswersExceptInUndefined := by
  refine ⟨exec_answers, fun s => ⟨?_, fun hu => ?_⟩⟩
  · rintro ⟨t, h⟩ u p hr
    rw [step_of_undefined hr] at h
    cases h
  · obtain ⟨-, -, hs⟩ | ⟨-, -, k, -, hs⟩ | ⟨-, -, i, -, hs⟩ | ⟨-, hs⟩ | ⟨u, p, hr, -⟩ := step_cases s
    · exact ⟨_, hs⟩
    · exact ⟨_, hs⟩
    · exact hs ▸ exec_answers i s.nextSample
    · exact ⟨_, hs⟩
    · exact absurd hr (hu u p)

/-- Settles O31: the instructions with a clear sets-PC bit end by the automatic advance, past as many operand bytes as N says. -/
theorem pcAdvancesPastTheInstruction : Obligations.PcAdvancesPastTheInstruction := by
  intro i s t _ h hrun hp _
  rw [← operandBytes_length]
  exact exec_pc_of_not_setsPc h hrun ((opcode_setsPc_eq_false_iff _).mp hp)

/-- Settles O53: at most two slots are read either way; with prefetch always two, of which one does not exist from 254 on. -/
theorem prefetchMattersOnlyInTheLastTwoBytes : Obligations.PrefetchMattersOnlyInTheLastTwoBytes := by
  refine fun m p => ⟨fun hp => ?_, fun op hp hop hne h3 => ?_⟩
  · rw [fetchInstr, fetchInstr, fetchBytes_prefetch_eq hp]
  · rw [← operandCount_eq_div] at h3
    exact fetchInstr_of_fetchBytes_error (fetchBytes_of_slots_outside true hop hne h3 (Nat.add_le_add_right hp 2))

/-- Settles O9: what the bytes at the PC decode to is the fetched instruction. -/
theorem stepRunsTheDecodedInstruction : Obligations.StepRunsTheDecodedInstruction :=
  fun _ _ _ _ ⟨hr, hc⟩ hb hd => step_of_fetch_ok hr hc (fetchInstr_of_bytesAt hb hd)

/-- Settles O11, by the cancel case of a step. -/
theorem assertedCancelEndsTheRun : Obligations.AssertedCancelEndsTheRun :=
  fun _ hr hc => step_of_cancel hr hc

/-- Settles O12: the opcode is read before anything else, and that read is bounds-checked. -/
theorem opcodeFetchReadsAtThePc : Obligations.OpcodeFetchReadsAtThePc :=
  ⟨fun _ _ _ _ h => memRead_of_fetchBytes h, fun _ ⟨hr, hc⟩ hp =>
    step_of_fetch_error hr hc (fetchInstr_of_fetchBytes_error (fetchBytes_of_ge _ hp))⟩

/-- Settles O13: the halt code is fetched alone and is HLT. -/
theorem haltCodeEndsTheRun : Obligations.HaltCodeEndsTheRun :=
  fun _ ⟨hr, hc⟩ hop => step_of_fetch_ok hr hc (fetchInstr_of_haltCode hop)

end Sys2Proof.Proofs

end

/-! ### The ALU: the values it computes, the frame of its instructions, and the statements about it (spec/41_alu.md) -/

section

namespace Sys2Proof.Machine

open Sys2Proof.Safety

/-! ### Values, as numbers or bit by bit -/

theorem trunc8_toNat (v : Nat) : (trunc8 v).toNat = v % 256 := BitVec.toNat_ofNat v 8

theorem trunc8_toNat_of_lt {v : Nat} (h : v < 256) : (trunc8 v).toNat = v :=
  (trunc8_toNat v).trans (Nat.mod_eq_of_lt h)

/-- Integers are reduced to the non-negative remainder (00_scope.md R8). -/
theorem trunc8Int_toNat (v : Int) : ((trunc8Int v).toNat : Int) = v % 256 := by
  rw [trunc8Int, BitVec.toNat_ofInt]
  exact Int.toNat_of_nonneg (Int.emod_nonneg v (by decide))

theorem shlBytes_toNat (a b : Byte) : (shlBytes a b).toNat = a.toNat * 2 ^ b.toNat % 256 := by
  rw [shlBytes, trunc8_toNat, Nat.shiftLeft_eq]

/-- A right shift does not grow the value, so nothing is truncated. -/
theorem shrBytes_toNat (a b : Byte) : (shrBytes a b).toNat = a.toNat / 2 ^ b.toNat := by
  rw [shrBytes, Nat.shiftRight_eq_div_pow]
  exact trunc8_toNat_of_lt ((Nat.div_le_self _ _).trans_lt a.isLt)

/-- A remainder is at most the dividend, so nothing is truncated. -/
theorem modBytes_toNat (a b : Byte) : (modBytes a b).toNat = a.toNat % b.toNat :=
  trunc8_toNat_of_lt ((Nat.mod_le _ _).trans_lt a.isLt)

theorem notByte_toNat (a : Byte) : (notByte a).toNat = 255 - a.toNat := BitVec.toNat_not

section CompareFlags

variable {a b : Byte}

theorem compareFlags_of_eq (h : a.toNat = b.toNat) : compareFlags a b = 0x01 := if_pos (BitVec.eq_of_toNat_eq h)

theorem compareFlags_of_gt (h : a.toNat > b.toNat) : compareFlags a b = 0x02 := by
  have hne : a ≠ b := fun e => h.ne' (congrArg BitVec.toNat e)
  rw [compareFlags, if_neg hne, if_pos h]
  rfl

theorem compareFlags_of_lt (h : a.toNat < b.toNat) : compareFlags a b = 0x04 := by
  have hne : a ≠ b := fun e => h.ne (congrArg BitVec.toNat e)
  rw [compareFlags, if_neg hne, if_neg h.not_gt]
  rfl

end CompareFlags

/-! ### Completing with a register written -/

/-- The frame of writing one register and advancing (41_alu.md R130). -/
theorem onlyRegisterChanges_setReg_advance (s : State) (a : Reg) (v : Byte) (n : Nat) :
    OnlyRegisterChanges a s ((s.setReg a v).advance n) :=
  ⟨fun _ hr => setReg_reg_of_ne s v (Fin.val_ne_of_ne hr), fun _ => rfl, rfl, rfl, rfl, rfl⟩

/-- What an instruction that answers `s` with `a` written and the PC advanced completes with. -/
theorem completes_of_setReg_advance {o : Host.Outcome State Fault Refusal} {s : State} {a : Reg} {v : Byte} {n : Nat}
    (h : o = .next ((s.setReg a v).advance n)) :
    ∃ t, o = .next t ∧ t.reg a = v ∧ t.pc = s.pc + BitVec.ofNat 9 (n + 1) ∧ OnlyRegisterChanges a s t := by
  have hreg : ((s.setReg a v).advance n).reg a = v := by simp
  exact ⟨_, h, hreg, advance_pc _ n, onlyRegisterChanges_setReg_advance s a v n⟩

end Sys2Proof.Machine

namespace Sys2Proof.Proofs

open Sys2Proof.Machine Sys2Proof.Safety

/-- Settles O32: Ra is written with the exact result, truncated. -/
theorem addSubMulGiveTheResultModulo256 : Obligations.AddSubMulGiveTheResultModulo256 := by
  refine fun s ra rb ha hb => ⟨?_, ?_, ?_⟩
  · obtain ⟨t, ht, hv, hpc, hframe⟩ := completes_of_setReg_advance (exec_add s ha hb)
    exact ⟨t, ht, by rw [hv, addBytes, trunc8_toNat], hpc, hframe⟩
  · obtain ⟨t, ht, hv, hpc, hframe⟩ := completes_of_setReg_advance (exec_sub s ha hb)
    exact ⟨t, ht, by rw [hv, subBytes, trunc8Int_toNat], hpc, hframe⟩
  · obtain ⟨t, ht, hv, hpc, hframe⟩ := completes_of_setReg_advance (exec_mul s ha hb)
    exact ⟨t, ht, by rw [hv, mulBytes, trunc8_toNat], hpc, hframe⟩

/-- Settles O33: Ra is written with the bitwise operation of the two words. -/
theorem andOrXorActOnEachBit : Obligations.AndOrXorActOnEachBit := by
  refine fun s ra rb ha hb => ⟨?_, ?_, ?_⟩
  · obtain ⟨t, ht, hv, hpc, hframe⟩ := completes_of_setReg_advance (exec_and s ha hb)
    exact ⟨t, ht, fun k _ => by rw [hv, andBytes, BitVec.getLsbD_and], hpc, hframe⟩
  · obtain ⟨t, ht, hv, hpc, hframe⟩ := completes_of_setReg_advance (exec_or s ha hb)
    exact ⟨t, ht, fun k _ => by rw [hv, orBytes, BitVec.getLsbD_or], hpc, hframe⟩
  · obtain ⟨t, ht, hv, hpc, hframe⟩ := completes_of_setReg_advance (exec_xor s ha hb)
    exact ⟨t, ht, fun k _ => by rw [hv, xorBytes, BitVec.getLsbD_xor], hpc, hframe⟩

/-- Settles O34: the complement of a byte is 255 minus it. -/
theorem notGivesTheComplement : Obligations.NotGivesTheComplement := by
  intro s ra ha
  obtain ⟨t, ht, hv, hpc, hframe⟩ := completes_of_setReg_advance (exec_not s ha)
  exact ⟨t, ht, by rw [hv, notByte_toNat], hpc, hframe⟩

/-- Settles O35: the shifts are a multiplication and a division by a power of two on naturals, for any amount. -/
theorem shiftsUseTheWholeAmount : Obligations.ShiftsUseTheWholeAmount := by
  refine fun s ra rb ha hb => ⟨?_, ?_⟩
  · obtain ⟨t, ht, hv, hpc, hframe⟩ := completes_of_setReg_advance (exec_shl s ha hb)
    exact ⟨t, ht, by rw [hv, shlBytes_toNat], hpc, hframe⟩
  · obtain ⟨t, ht, hv, hpc, hframe⟩ := completes_of_setReg_advance (exec_shr s ha hb)
    exact ⟨t, ht, by rw [hv, shrBytes_toNat], hpc, hframe⟩

/-- Settles O36: past the divisor check MOD is a binary operation like the others; at the check it only raises. -/
theorem modGivesTheRemainderOrRaises : Obligations.ModGivesTheRemainderOrRaises := by
  refine fun s ra rb ha hb => ⟨fun hdivisor => ?_, fun hzero => exec_mod_zero s ha hb hzero⟩
  obtain ⟨t, ht, hv, hpc, hframe⟩ := completes_of_setReg_advance (exec_mod s ha hb hdivisor)
  exact ⟨t, ht, by rw [hv, modBytes_toNat], hpc, hframe⟩

/-- Settles O37: FL becomes the flags of the comparison, by the order of the two values. -/
theorem compareWritesFlagsWhole : Obligations.CompareWritesFlagsWhole :=
  fun s _ _ ha hb => ⟨_, exec_cmp s ha hb, compareFlags_of_eq, compareFlags_of_gt, compareFlags_of_lt,
    advance_pc _ 2, fun _ => rfl, fun _ => rfl, rfl, rfl, rfl⟩

end Sys2Proof.Proofs

end

/-! ### Load and output: the frame of an instruction that prints, and the statements about LDI, PRN, PRA and the bytes the
spec writes out (spec/42_load_and_output.md) -/

section

namespace Sys2Proof.Machine

open Sys2Proof.Safety

/-- What an instruction that answers `s` with one event appended and the PC advanced completes with. -/
theorem completes_of_emit_advance {o : Host.Outcome State Fault Refusal} {s : State} {e : OutEvent} {n : Nat}
    (h : o = .next ((s.emit e).advance n)) :
    ∃ t, o = .next t ∧ t.out = s.out ++ [e] ∧ t.pc = s.pc + BitVec.ofNat 9 (n + 1) ∧ SameRegisters s t ∧
      SameMemory s t ∧ t.fl = s.fl ∧ t.run = s.run ∧ t.cancel = s.cancel :=
  ⟨_, h, State.emit_out s e, advance_pc _ n, fun _ => rfl, fun _ => rfl, rfl, rfl, rfl⟩

end Sys2Proof.Machine

namespace Sys2Proof.Proofs

open Sys2Proof.Machine Sys2Proof.Safety

/-- Settles O4: each row of bytes is the encoding of its instruction, with nothing behind it. -/
theorem bytesWrittenInTheSpecDecode : Obligations.BytesWrittenInTheSpecDecode := by
  have hdecode (i : Instr) : decode (encode i ++ []) = .ok (i, []) := decodeInvertsEncode i []
  exact ⟨hdecode (.ldi 0 8), hdecode (.mul 0 1), hdecode (.not 0), hdecode (.cmp 0 1), hdecode (.prn 0),
    hdecode (.push 1), hdecode (.call 2), hdecode (.jne 3), hdecode .ret, hdecode .hlt⟩

/-- Settles O38: LDI writes one register and advances past its three bytes. -/
theorem ldiLoadsTheImmediate : Obligations.LdiLoadsTheImmediate :=
  fun s _ imm ha => completes_of_setReg_advance (exec_ldi imm s ha)

/-- Settles O39: PRN and PRA differ only in the event that they append. -/
theorem printAppendsOneEvent : Obligations.PrintAppendsOneEvent :=
  fun s _ ha => ⟨completes_of_emit_advance (exec_prn s ha), completes_of_emit_advance (exec_pra s ha)⟩

end Sys2Proof.Proofs

end

/-! ### The stack: the frames of a push and of a pop, what enters UNDEFINED, and the statements about PUSH and POP
(spec/43_stack.md) -/

section

namespace Sys2Proof.Machine

open Sys2Proof.Safety

/-! ### SP -/

/-- SP is the register whose number is 7 (10_state.md R21). -/
theorem mk_eq_seven_iff {ra : Byte} (ha : ra.toNat < 8) : (⟨ra.toNat, ha⟩ : Reg) = 7 ↔ ra.toNat = 7 := Fin.ext_iff

/-- Where SP is not 0 its decrement does not wrap (43_stack.md R171). -/
theorem sp_sub_one_toNat {s : State} (h : s.reg 7 ≠ 0) : (s.reg 7 - 1).toNat = (s.reg 7).toNat - 1 :=
  BitVec.toNat_sub_of_le (Nat.one_le_iff_ne_zero.mpr fun hz => h (BitVec.eq_of_toNat_eq hz))

/-! ### A push -/

/-- The byte a push stored is what stands at the new SP. -/
theorem pushed_get_sp (s : State) (v : Byte) : (pushed s v).mem.get ((pushed s v).reg 7).toNat = v := by
  simp

/-- A push leaves every register but SP as it was. -/
theorem sameRegistersBut_pushed (s : State) (v : Byte) : SameRegistersBut 7 s (pushed s v) :=
  fun _ hr => setReg_reg_of_ne s _ (Fin.val_ne_of_ne hr)

/-- What an instruction that answers `s` with `v` pushed and the PC set completes with (43_stack.md R171). -/
theorem completes_of_pushed_setPc {o : Host.Outcome State Fault Refusal} {s : State} {v : Byte} {p : Pc}
    (h0 : s.reg 7 ≠ 0) (h : o = .next ((pushed s v).setPc p)) :
    ∃ t, o = .next t ∧ (t.reg 7).toNat = (s.reg 7).toNat - 1 ∧ memRead t.mem ((s.reg 7).toNat - 1) = .ok v ∧
      (∀ a, a = pushAddress s → SameMemoryBut a s t) ∧ pushAddress s = (s.reg 7).toNat - 1 ∧ t.pc = p ∧
      SameRegistersBut 7 s t ∧ SameRest s t := by
  have hsp : (s.reg 7 - 1).toNat = (s.reg 7).toNat - 1 := sp_sub_one_toNat h0
  have hreg : (pushed s v).reg 7 = s.reg 7 - 1 := by simp
  have hread (b : Nat) : memRead (pushed s v).mem b =
      if b = (s.reg 7 - 1).toNat ∧ b < 256 then .ok v else memRead s.mem b := memRead_set _ _ b v
  refine ⟨_, h, (congrArg BitVec.toNat hreg).trans hsp, ?_, ?_, hsp, rfl, sameRegistersBut_pushed s v, rfl, rfl, rfl, rfl⟩
  · rw [← hsp]
    exact (hread _).trans (if_pos ⟨rfl, (s.reg 7 - 1).isLt⟩)
  · rintro _ rfl b hb
    exact (hread b).trans (if_neg fun hcell => hb hcell.1)

/-! ### A pop -/

/-- The state after a pop of `v` into `a`: the increment is of SP as the load left it (43_stack.md R173). -/
def popped (s : State) (a : Reg) (v : Byte) : State := (s.setReg a v).setReg 7 ((s.setReg a v).reg 7 + 1)

theorem exec_pop_eq_popped {ra : Byte} (s : State) (ha : ra.toNat < 8) :
    exec (.pop ra) s = .next ((popped s ⟨ra.toNat, ha⟩ (s.mem.get (s.reg 7).toNat)).advance 1) := exec_pop s ha

section Popped

variable (s : State) {a : Reg} (v : Byte)

theorem popped_reg_dest (h : a ≠ 7) : (popped s a v).reg a = v := by
  simp [popped, h]

theorem popped_reg_sp (h : a ≠ 7) : (popped s a v).reg 7 = s.reg 7 + 1 := by
  simp [popped, h.symm]

/-- POP R7 increments the loaded byte. -/
theorem popped_sp_reg_sp : (popped s 7 v).reg 7 = v + 1 := by
  simp [popped]

theorem sameRegistersBut2_popped : SameRegistersBut2 a 7 s (popped s a v) := by
  intro r ha h7
  simp [popped, ha, h7]

end Popped

/-- Writing a register with its own value changes nothing. -/
theorem setReg_reg_self (s : State) (a : Reg) : s.setReg a (s.reg a) = s := by
  have hx : s.x.set a s.x[a] = s.x := Vector.set_getElem_self a.isLt
  rw [State.setReg, State.reg, hx]

/-- A pop of the value that its register already holds moves SP alone. -/
theorem exec_pop_of_get_sp_eq {ra : Byte} (s : State) (ha : ra.toNat < 8)
    (h : s.mem.get (s.reg 7).toNat = s.reg ⟨ra.toNat, ha⟩) :
    exec (.pop ra) s = .next ((s.setReg 7 (s.reg 7 + 1)).advance 1) := by
  rw [exec_pop_eq_popped s ha, h, popped, setReg_reg_self]

/-- Incrementing SP after a push gives every register its value before it. -/
theorem sameRegisters_setReg_sp_pushed (s : State) (v : Byte) :
    SameRegisters s ((pushed s v).setReg 7 ((pushed s v).reg 7 + 1)) := by
  intro r
  by_cases h7 : r = 7
  · simp [h7]
  · simp [h7]

/-! ### Entering UNDEFINED -/

/-- An instruction enters UNDEFINED only as a PUSH or CALL of a register with SP = 0 (43_stack.md R172). -/
theorem push_or_call_of_exec_undefined {i : Instr} {s t : State} {u : UndefinedReason} {p : Pc}
    (hr : s.run = .running) (h : exec i s = .next t) (hu : t.run = .undefined u p) :
    s.reg 7 = 0 ∧ ∃ ra : Byte, ra.toNat < 8 ∧ (i = .push ra ∨ i = .call ra) := by
  obtain rfl | he := exec_cases h
  · cases hu
  · cases he with
    | underflows ra ha hi h0 => exact ⟨h0, ra, ha, hi⟩
    | halts | dividesByZero => cases hu
    | _ => cases hr.symm.trans hu

/-- An instruction whose bytes stand at an address is fetched there. -/
theorem fetchInstr_of_bytesAt_encode {m : Memory} {p : Nat} {i : Instr} (hb : BytesAt m p (encode i)) :
    fetchInstr false m p = .ok i :=
  fetchInstr_of_bytesAt (rest := []) hb (List.append_nil (encode i) ▸ Proofs.decodeInvertsEncode i [])

end Sys2Proof.Machine

namespace Sys2Proof.Proofs

open Sys2Proof.Machine Sys2Proof.Safety

/-- Settles O42: past the register check, a push at SP = 0 is the undefined case. -/
theorem pushAndCallAtZeroEnterUndefined : Obligations.PushAndCallAtZeroEnterUndefined :=
  fun s _ ha h0 => ⟨exec_push_zero s ha h0, exec_call_zero s ha h0⟩

/-- Settles O25: the fetched instruction's bytes stand at the PC, and instructions whose bytes stand there are fetched; only
PUSH and CALL with SP = 0 enter UNDEFINED. -/
theorem undefinedIsEnteredOnlyByPushOrCallAtZero : Obligations.UndefinedIsEnteredOnlyByPushOrCallAtZero := by
  rintro s ⟨hr, hc⟩
  constructor
  · rintro ⟨t, u, p, h, hu⟩
    rcases hf : fetchInstr Config.prefetchOperands s.mem s.pc.toNat with k | i
    · rw [step_of_fetch_error hr hc hf] at h
      cases h
      cases hu
    · rw [step_of_fetch_ok hr hc hf] at h
      have hbytes := bytesAt_encode_of_fetchInstr hf
      obtain ⟨h0, ra, ha, rfl | rfl⟩ := push_or_call_of_exec_undefined (s := s.nextSample) hr h hu
      · exact ⟨h0, ra, ha, .inl hbytes⟩
      · exact ⟨h0, ra, ha, .inr hbytes⟩
  · rintro ⟨h0, ra, ha, hb⟩
    obtain ⟨hpush, hcall⟩ := pushAndCallAtZeroEnterUndefined s.nextSample ra ha h0
    obtain hb | hb := hb
    · exact ⟨_, _, _, (step_of_fetch_ok hr hc (fetchInstr_of_bytesAt_encode hb)).trans hpush, rfl⟩
    · exact ⟨_, _, _, (step_of_fetch_ok hr hc (fetchInstr_of_bytesAt_encode hb)).trans hcall, rfl⟩

/-- Settles O40: the pushed value is read after the decrement, which is seen by SP alone. -/
theorem pushStoresBelowTheStackPointer : Obligations.PushStoresBelowTheStackPointer := by
  intro s ra ha h0
  have hvalue : (s.setReg 7 (s.reg 7 - 1)).reg ⟨ra.toNat, ha⟩ =
      if ra.toNat = 7 then s.reg 7 - 1 else s.reg ⟨ra.toNat, ha⟩ := by
    simp only [State.setReg_reg, mk_eq_seven_iff]
  obtain ⟨t, ht, hsp, hread, hmem, haddr, hpc, hregs, hrest⟩ := completes_of_pushed_setPc h0 (exec_push s ha h0)
  exact ⟨t, ht, hsp, hvalue ▸ hread, hmem, haddr, hpc.trans (advance_pc s 1), hregs, hrest⟩

/-- Settles O41: the byte at SP always exists, and SP is incremented after the load. -/
theorem popLoadsFromTheStackPointer : Obligations.PopLoadsFromTheStackPointer := by
  intro s ra ha
  refine ⟨_, s.mem.get (s.reg 7).toNat, exec_pop_eq_popped s ha, memRead_of_lt (s.reg 7).isLt, fun hne => ?_,
    fun heq => ?_, advance_pc _ 1, sameRegistersBut2_popped s _, fun _ => rfl, rfl, rfl, rfl, rfl⟩
  · have h7 : (⟨ra.toNat, ha⟩ : Reg) ≠ 7 := mt (mk_eq_seven_iff ha).mp hne
    exact ⟨popped_reg_dest s _ h7, congrArg BitVec.toNat (popped_reg_sp s _ h7)⟩
  · rw [(mk_eq_seven_iff ha).mpr heq]
    exact congrArg BitVec.toNat (popped_sp_reg_sp s _)

/-- Settles O43: a push stores Ra as it stands after the decrement, so the pop finds at SP what Ra holds, Ra = SP too, and only
takes the decrement back. -/
theorem pushThenPopRoundTrips : Obligations.PushThenPopRoundTrips := by
  intro s ra ha h0
  have hregs := sameRegisters_setReg_sp_pushed s ((s.setReg 7 (s.reg 7 - 1)).reg ⟨ra.toNat, ha⟩)
  have hpc : s.pc + 1 + 1 + 1 + 1 = s.pc + 4 := by simp only [BitVec.add_assoc]; rfl
  exact ⟨_, _, exec_push s ha h0, exec_pop_of_get_sp_eq _ ha (pushed_get_sp s _), hregs, hpc, rfl, rfl, rfl, rfl⟩

end Sys2Proof.Proofs

end

/-! ### Control transfer: the PC as a number, the frames of a jump and of a return, and the statements about CALL, RET, the
jumps and HLT (spec/44_control_transfer.md) -/

section

namespace Sys2Proof.Machine

open Sys2Proof.Safety

/-! ### The PC as a number -/

/-- A jump target is an 8-bit address, zero-extended (10_state.md R25). -/
theorem jumpTo_pc_toNat (s : State) (v : Byte) : (s.jumpTo v).pc.toNat = v.toNat :=
  BitVec.toNat_setWidth_of_le (by decide)

/-- Past an instruction of two bytes the PC is not truncated, so from 254 it is 256 (10_state.md R25). -/
theorem advance_one_pc_toNat {s : State} (h : s.pc.toNat ≤ 254) : (s.advance 1).pc.toNat = s.pc.toNat + 2 := by
  have hlt : s.pc.toNat + (2 : Pc).toNat < 2 ^ 9 := Nat.lt_of_le_of_lt (Nat.add_le_add_right h 2) (by decide)
  rw [advance_pc]
  exact BitVec.toNat_add_of_lt hlt

theorem returnAddress_toNat (p : Pc) : (returnAddress p).toNat = (p.toNat + 2) % 256 := trunc8_toNat _

/-! ### Jumps -/

/-- The frame of setting the PC. -/
theorem onlyPcChanges_setPc (s : State) (p : Pc) : OnlyPcChanges s (s.setPc p) :=
  ⟨fun _ => rfl, fun _ => rfl, rfl, rfl, rfl, rfl⟩

/-- What a conditional jump to `v`, taken when bit E of FL is `e`, completes with (44_control_transfer.md R183). -/
theorem completes_of_jump_when_equalFlag {o : Host.Outcome State Fault Refusal} {s : State} {e : Bool} {v : Byte}
    (h : o = .next (if s.equalFlag = e then s.jumpTo v else s.advance 1)) :
    ∃ t, o = .next t ∧ OnlyPcChanges s t ∧ (s.equalFlag = e → t.pc.toNat = v.toNat) ∧
      (s.equalFlag = !e → s.pc.toNat ≤ 254 → t.pc.toNat = s.pc.toNat + 2) := by
  by_cases he : s.equalFlag = e
  · rw [if_pos he] at h
    exact ⟨_, h, onlyPcChanges_setPc s _, fun _ => jumpTo_pc_toNat s v,
      fun hne => absurd (he.symm.trans hne) (Bool.self_ne_not e)⟩
  · rw [if_neg he] at h
    exact ⟨_, h, onlyPcChanges_setPc s _, fun heq => absurd heq he, fun _ => advance_one_pc_toNat⟩

/-! ### CALL and RET -/

/-- A register read after a push sees the decrement in SP alone (44_control_transfer.md R180). -/
theorem pushed_reg_toNat {s : State} (h0 : s.reg 7 ≠ 0) (v : Byte) {ra : Byte} (ha : ra.toNat < 8) :
    ((pushed s v).reg ⟨ra.toNat, ha⟩).toNat =
      if ra.toNat = 7 then (s.reg 7).toNat - 1 else (s.reg ⟨ra.toNat, ha⟩).toNat := by
  rw [State.setMem_reg, State.setReg_reg, apply_ite BitVec.toNat, sp_sub_one_toNat h0]
  simp only [mk_eq_seven_iff]

/-- A RET where `v` stands at SP jumps there and moves SP (44_control_transfer.md R181). -/
theorem exec_ret_of_get_sp_eq {s : State} {v : Byte} (h : s.mem.get (s.reg 7).toNat = v) :
    exec .ret s = .next ((s.jumpTo v).setReg 7 (s.reg 7 + 1)) := h ▸ exec_ret s

end Sys2Proof.Machine

namespace Sys2Proof.Proofs

open Sys2Proof.Machine Sys2Proof.Safety

/-- Settles O44: CALL is a push of the return address and a jump to Ra as the push left it. -/
theorem callPushesTheReturnAddress : Obligations.CallPushesTheReturnAddress := by
  intro s ra ha h0
  obtain ⟨t, ht, hsp, hread, hmem, haddr, hpc, hregs, hrest⟩ := completes_of_pushed_setPc h0 (exec_call s ha h0)
  have htarget : t.pc.toNat = ((pushed s (returnAddress s.pc)).reg ⟨ra.toNat, ha⟩).toNat :=
    hpc ▸ jumpTo_pc_toNat s _
  exact ⟨t, ht, hsp, ⟨_, hread, returnAddress_toNat s.pc⟩, htarget.trans (pushed_reg_toNat h0 _ ha), hmem, haddr, hregs,
    hrest⟩

/-- Settles O45: the byte at SP always exists, and a jump leaves SP as it was for the increment. -/
theorem retPopsTheReturnAddress : Obligations.RetPopsTheReturnAddress := by
  intro s
  have hsp (v : Byte) : ((s.jumpTo v).setReg 7 (s.reg 7 + 1)).reg 7 = s.reg 7 + 1 := by simp
  exact ⟨_, _, exec_ret s, memRead_of_lt (s.reg 7).isLt, jumpTo_pc_toNat s _, congrArg BitVec.toNat (hsp _),
    fun _ hr => setReg_reg_of_ne (s.jumpTo _) _ (Fin.val_ne_of_ne hr), fun _ => rfl, rfl, rfl, rfl, rfl⟩

/-- Settles O46: wherever the CALL jumped to, its return address stands at SP, and the RET takes the decrement back. -/
theorem callThenRetReturnsPastTheCall : Obligations.CallThenRetReturnsPastTheCall := by
  intro s ra ha h0
  have hpc := (jumpTo_pc_toNat s (returnAddress s.pc)).trans (returnAddress_toNat s.pc)
  exact ⟨_, _, exec_call s ha h0, exec_ret_of_get_sp_eq (pushed_get_sp s (returnAddress s.pc)), hpc,
    sameRegisters_setReg_sp_pushed s (returnAddress s.pc), rfl, rfl, rfl, rfl⟩

/-- Settles O48: JEQ and JNE are one conditional jump, taken at opposite values of bit E. -/
theorem conditionalJumpsFollowTheEqualFlag : Obligations.ConditionalJumpsFollowTheEqualFlag :=
  fun s _ ha => ⟨completes_of_jump_when_equalFlag (exec_jeq s ha), completes_of_jump_when_equalFlag (exec_jne s ha)⟩

/-- Settles O47: the PC becomes the register's value, and setting it changes nothing else. -/
theorem jmpSetsThePc : Obligations.JmpSetsThePc :=
  fun s _ ha => ⟨_, exec_jmp s ha, jumpTo_pc_toNat s _, onlyPcChanges_setPc s _⟩

/-- Settles O49: the meaning of HLT is to set the run state. -/
theorem hltChangesOnlyTheRunState : Obligations.HltChangesOnlyTheRunState := fun _ => rfl

end Sys2Proof.Proofs

end

/-! ### Errors and the trace snapshot: the source of DivideByZero, the snapshot's bytes, and the statements about both
(spec/60_exceptions.md) -/

section

namespace Sys2Proof.Machine

/-- An instruction raises DivideByZero only as a MOD of two registers with a divisor of 0 (60_exceptions.md R203). -/
theorem mod_of_exec_divideByZero {i : Instr} {s t : State} {p : Pc} (hr : s.run = .running) (h : exec i s = .next t)
    (hd : t.run = .error .divideByZero p) :
    ∃ (ra rb : Byte) (_ : ra.toNat < 8) (hb : rb.toNat < 8), i = .mod ra rb ∧ s.reg ⟨rb.toNat, hb⟩ = 0 := by
  obtain rfl | he := exec_cases h
  · cases hd
  · cases he with
    | dividesByZero ra rb ha hb hi h0 => exact ⟨ra, rb, ha, hb, hi, h0⟩
    | halts | underflows => cases hd
    | _ => cases hr.symm.trans hd

/-- A snapshot byte is the byte that MemRead gives (20_memory.md R63). -/
theorem snapshotByte_eq_some_iff (m : Memory) (a : Nat) (v : Byte) : snapshotByte m a = some v ↔ memRead m a = .ok v := by
  rw [snapshotByte]
  cases memRead m a <;> simp [Except.toOption]

/-- A snapshot byte is absent exactly beyond address 255 (60_exceptions.md R214). -/
theorem snapshotByte_eq_none_iff (m : Memory) (a : Nat) : snapshotByte m a = none ↔ 256 ≤ a := by
  obtain ha | ha := Nat.lt_or_ge a 256
  · simp [snapshotByte, memRead_of_lt ha, Except.toOption, ha]
  · simp [snapshotByte, memRead_of_ge ha, Except.toOption, ha]

end Sys2Proof.Machine

namespace Sys2Proof.Proofs

open Sys2Proof.Machine Sys2Proof.Safety

/-- Settles O24: no fetch raises DivideByZero, and of the instructions only MOD does, past its register checks. -/
theorem divideByZeroIsRaisedOnlyByMod : Obligations.DivideByZeroIsRaisedOnlyByMod := by
  rintro s ⟨hr, hc⟩
  constructor
  · rintro ⟨t, p, h, hd⟩
    rcases hf : fetchInstr Config.prefetchOperands s.mem s.pc.toNat with k | i
    · rw [step_of_fetch_error hr hc hf] at h
      cases h
      obtain rfl | rfl := fetchInstr_error hf <;> cases hd
    · rw [step_of_fetch_ok hr hc hf] at h
      obtain ⟨ra, rb, ha, hb, rfl, h0⟩ := mod_of_exec_divideByZero (s := s.nextSample) hr h hd
      exact ⟨ra, rb, ha, hb, bytesAt_encode_of_fetchInstr hf, h0⟩
  · rintro ⟨ra, rb, ha, hb, hbytes, h0⟩
    have hmod := exec_mod_zero s.nextSample ha hb h0
    exact ⟨_, _, (step_of_fetch_ok hr hc (fetchInstr_of_bytesAt_encode hbytes)).trans hmod, rfl⟩

/-- Settles O52: each byte of the snapshot is a MemRead, and the snapshot is built from PC, memory and registers alone. -/
theorem snapshotShowsPcBytesAndRegisters : Obligations.SnapshotShowsPcBytesAndRegisters :=
  fun s => ⟨rfl, rfl, snapshotByte_eq_some_iff s.mem _, snapshotByte_eq_some_iff s.mem _, snapshotByte_eq_some_iff s.mem _,
    snapshotByte_eq_none_iff s.mem _, snapshotByte_eq_none_iff s.mem _, snapshotByte_eq_none_iff s.mem _,
    fun _ _ _ => rfl⟩

end Sys2Proof.Proofs

end

/-! ### Reset, load and the loading hook: what each leaves in memory and in the rest of the state, and the statements about
them (spec/70_reset_and_hazards.md) -/

section

namespace Sys2Proof.Machine

open Sys2Proof.Safety

/-! ### Bytes stored at increasing addresses -/

/-- Bytes stored where each of them has a cell stand there. -/
theorem bytesAt_storeBytes {m : Memory} {a : Nat} {bs : List Byte} (h : a + bs.length ≤ 256) :
    BytesAt (storeBytes m a bs) a bs := by
  intro k
  have hlt : a + k < a + bs.length := Nat.add_lt_add_left k.isLt a
  rw [memRead_of_lt (hlt.trans_le h), storeBytes_get bs m a (a + k) (hlt.trans_le h), if_pos ⟨Nat.le_add_right a k, hlt⟩]
  simp

/-- Stored from address 0 into memory as constructed, bytes are all that memory holds. -/
theorem memRead_storeBytes_nil (bs : List Byte) {a : Nat} (ha : a < 256) :
    memRead (storeBytes [] 0 bs) a = .ok (bs.getD a 0x00) := by
  rw [memRead_of_lt ha, storeBytes_get bs [] 0 a ha, Nat.sub_zero, Nat.zero_add]
  obtain hin | hout := Nat.lt_or_ge a bs.length
  · rw [if_pos ⟨Nat.zero_le a, hin⟩]
  · rw [if_neg fun h => Nat.not_lt.mpr hout h.2, List.getD_eq_default bs 0x00 hout, Memory.get_nil]

/-! ### Construction and load -/

/-- R0..R6 after construction hold the spec's own choice of 0 (D2). -/
theorem reset_reg_of_ne_sp : ∀ r : Reg, r ≠ 7 → State.reset.reg r = 0x00 := by decide

theorem boot_of_length_le {image : List Byte} (h : image.length ≤ 256) :
    boot image = State.reset.setMem (storeBytes [] 0 image) :=
  if_neg (Nat.not_lt.mpr h)

theorem boot_of_length_gt {image : List Byte} (h : 256 < image.length) :
    boot image = State.reset.setRun (.error .loadError 0) :=
  if_pos h

/-! ### The word that `withFetchWord` places -/

/-- An instruction read from a table word is what the word's bytes decode to. -/
theorem decode_tableBytes_of_decodeTableWord {nbits w : Nat} {i : Instr} (h : decodeTableWord nbits w = some i) :
    ∃ rest, decode (tableBytes nbits w) = .ok (i, rest) := by
  rw [decodeTableWord] at h
  rcases hd : decode (tableBytes nbits w) with r | ⟨j, rest⟩
  · simp [hd] at h
  · obtain rfl : j = i := by simpa [hd] using h
    exact ⟨rest, rfl⟩

/-- Placing a word makes the state one whose step runs an instruction, whatever its run state and its next cancel sample. -/
theorem ready_withFetchWord (s : State) (nbits w : Nat) : Ready (s.withFetchWord nbits w) := by
  refine ⟨rfl, ?_⟩
  change (deassertNext s.cancel).headD false = false
  cases s.cancel <;> rfl

/-- The three bytes of a placed word stand at the PC, wherever there is room for three. -/
theorem bytesAt_withFetchWord {s : State} (h : s.pc.toNat ≤ 253) (nbits w : Nat) :
    BytesAt (s.withFetchWord nbits w).mem s.pc.toNat (tableBytes nbits w) :=
  bytesAt_storeBytes (Nat.add_le_add_right h 3)

end Sys2Proof.Machine

namespace Sys2Proof.Proofs

open Sys2Proof.Machine Sys2Proof.Safety

/-- Settles O10: the placed state is ready and the word's bytes stand at its PC, so its step runs what they decode to. -/
theorem placedWordIsRunByTheNextStep : Obligations.PlacedWordIsRunByTheNextStep := by
  intro s nbits w i hpc hi
  obtain ⟨rest, hd⟩ := decode_tableBytes_of_decodeTableWord hi
  exact stepRunsTheDecodedInstruction _ i _ rest (ready_withFetchWord s nbits w) (bytesAt_withFetchWord hpc nbits w) hd

/-- Settles O22: memory after construction is the empty list, and RUNNING says nothing of the rest. -/
theorem resetMeetsTheInvariant : Obligations.ResetMeetsTheInvariant :=
  ⟨Memory.wf_nil, Nat.zero_le 256, .inl rfl, rfl⟩

/-- Settles O23: storing bytes keeps memory canonical, and a LoadError records 0, which the PC holds. -/
theorem bootMeetsTheInvariant : Obligations.BootMeetsTheInvariant := by
  intro image
  obtain ⟨hmem, hpc, hfl, hrun⟩ := resetMeetsTheInvariant
  obtain hgt | hle := Nat.lt_or_ge 256 image.length
  · rw [boot_of_length_gt hgt]
    exact ⟨hmem, hpc, hfl, rfl⟩
  · rw [boot_of_length_le hle]
    exact ⟨storeBytes_wf image 0 hmem, hpc, hfl, hrun⟩

/-- Settles O50: no cell is listed in memory after construction, and every other field is written out. -/
theorem resetLeavesTheStatedValues : Obligations.ResetLeavesTheStatedValues :=
  ⟨fun _ ha => memRead_of_lt (Nat.lt_succ_of_le ha), rfl, rfl, rfl, rfl, reset_reg_of_ne_sp, rfl⟩

/-- Settles O51: the load stores the image into memory as constructed, or sets the run state alone. -/
theorem loadWritesTheImageOrRaisesLoadError : Obligations.LoadWritesTheImageOrRaisesLoadError := by
  refine fun image => ⟨fun hle => ?_, boot_of_length_gt⟩
  rw [boot_of_length_le hle]
  exact ⟨fun a ha => memRead_storeBytes_nil image (Nat.lt_succ_of_le ha), rfl⟩

end Sys2Proof.Proofs

end
